-- ==== Sys2Proof/Word.lean ====
section
/-! DEFINITION. The words of the machine: bytes, 16-bit words, register numbers (00_scope.md R5 to R7). -/

namespace Sys2Proof

/-- An 8-bit value: a general register, a timer, a display cell, a byte of memory (R7). -/
abbrev Byte := BitVec 8

/-- A 16-bit value: `I`, `pc`, a stack entry, an instruction word (R7, R60). -/
abbrev Word := BitVec 16

/-- A 12-bit immediate address, the field `nnn` (R61). -/
abbrev Addr12 := BitVec 12

/-- The number of a general register, 0 to 15 (R10); also a key number (R27). -/
abbrev Reg := Fin 16

end Sys2Proof
end

