-- ==== Sys2Proof/Syntax.lean ====
section
/-! DEFINITION. The instruction set: one constructor per row of spec/opcode_table.json, in the table's order
(30_encoding.md R66). Operands are the fields of R61: `x`, `y` register numbers, `nn` a byte, `nnn` a 12-bit
address, `n` a count of rows. -/

namespace Sys2Proof

/-- The 34 instructions of 30_encoding.md R66. -/
inductive Instr where
  /-- `00E0`, clear the display (R130). -/
  | cls
  /-- `00EE`, return (R90). -/
  | ret
  /-- `1nnn`, jump (R91). -/
  | jp (nnn : Addr12)
  /-- `2nnn`, call (R92). -/
  | call (nnn : Addr12)
  /-- `3xnn`, skip if `Vx = nn` (R93). -/
  | seImm (x : Reg) (nn : Byte)
  /-- `4xnn`, skip if `Vx != nn` (R94). -/
  | sneImm (x : Reg) (nn : Byte)
  /-- `5xy0`, skip if `Vx = Vy` (R95). -/
  | seReg (x y : Reg)
  /-- `6xnn`, load immediate (R100). -/
  | ldImm (x : Reg) (nn : Byte)
  /-- `7xnn`, add immediate (R101). -/
  | addImm (x : Reg) (nn : Byte)
  /-- `8xy0`, register assign (R102). -/
  | ldReg (x y : Reg)
  /-- `8xy1`, or (R103). -/
  | orReg (x y : Reg)
  /-- `8xy2`, and (R104). -/
  | andReg (x y : Reg)
  /-- `8xy3`, exclusive or (R105). -/
  | xorReg (x y : Reg)
  /-- `8xy4`, add with carry out (R106). -/
  | addReg (x y : Reg)
  /-- `8xy5`, subtract `Vx - Vy` (R107). -/
  | sub (x y : Reg)
  /-- `8xy6`, shift right; `y` is encoded and not used (R108, R67). -/
  | shr (x y : Reg)
  /-- `8xy7`, reverse subtract `Vy - Vx` (R109). -/
  | subn (x y : Reg)
  /-- `8xyE`, shift left; `y` is encoded and not used (R110, R67). -/
  | shl (x y : Reg)
  /-- `9xy0`, skip if `Vx != Vy` (R96). -/
  | sneReg (x y : Reg)
  /-- `Annn`, load the index register (R120). -/
  | ldI (nnn : Addr12)
  /-- `Bnnn`, jump to `nnn + V0` (R97). -/
  | jpV0 (nnn : Addr12)
  /-- `Cxnn`, masked random byte (R111). -/
  | rnd (x : Reg) (nn : Byte)
  /-- `Dxyn`, draw an `n`-row sprite (R131); the field `n` is an unsigned count 0..15 (R63). -/
  | drw (x y : Reg) (n : Nat)
  /-- `Ex9E`, skip if the key named by `Vx` is pressed (R140). -/
  | skp (x : Reg)
  /-- `ExA1`, skip if the key named by `Vx` is not pressed (R141). -/
  | sknp (x : Reg)
  /-- `Fx07`, read the delay timer (R143). -/
  | ldVxDt (x : Reg)
  /-- `Fx0A`, wait for a key (R142). -/
  | ldVxK (x : Reg)
  /-- `Fx15`, write the delay timer (R144). -/
  | ldDtVx (x : Reg)
  /-- `Fx18`, write the sound timer (R145). -/
  | ldStVx (x : Reg)
  /-- `Fx1E`, add a register to the index register (R121). -/
  | addI (x : Reg)
  /-- `Fx29`, point `I` at a font glyph (R122). -/
  | ldF (x : Reg)
  /-- `Fx33`, store the decimal digits of `Vx` (R123). -/
  | ldB (x : Reg)
  /-- `Fx55`, store registers `V0` to `Vx` (R124). -/
  | storeRegs (x : Reg)
  /-- `Fx65`, load registers `V0` to `Vx` (R125). -/
  | loadRegs (x : Reg)
  deriving DecidableEq, Repr

end Sys2Proof
end

