-- ==== Sys2Proof/Config.lean ====
section
/-! DEFINITION. What the spec leaves open: the types of its named parameters, and the two values that stay free
(opaque, so that no proof can see them). The values the spec gives its parameters stand in Machine/Parameters.lean. -/

namespace Sys2Proof

/-- How many bytes the Memory Image has (`MEM_SIZE`, 00_scope.md R4): the two admissible values of 90_conflicts.md C1. -/
inductive MemSize where
  /-- 4096 bytes, last address 0xFFF: the value the spec takes. -/
  | bytes4096
  /-- 4095 bytes, last address 0xFFE: the losing reading, the only other admissible value. -/
  | bytes4095
  deriving DecidableEq, Repr

/-- A font table `FONT[0..79]`: 16 glyphs of 5 bytes (20_memory.md R48). -/
abbrev Font := Vector Byte 80

/-- Which of the two writes of a flag-writing instruction with `x = 0xF` comes last (`VF_ORDER`, 42_alu.md R114). -/
inductive VfOrder where
  /-- The flag is written last: `VF` ends as the flag. -/
  | flagLast
  /-- The result is written last: `VF` ends as the 8-bit result. -/
  | resultLast
  deriving DecidableEq, Repr, Inhabited

/-- What Ex9E and ExA1 do with `Vx > 15` (`KEY_INDEX_POLICY`, 45_keypad_timers.md R151). -/
inductive KeyIndexPolicy where
  /-- The model-level fault `KeyIndexOutOfRange`. -/
  | fault
  /-- The index is reduced to its low four bits. -/
  | mask4
  deriving DecidableEq, Repr

/-- Which event of Dxyn sets `VF` (`DRAW_VF`, 44_display.md R131, 90_conflicts.md C2). -/
inductive DrawVf where
  /-- Meeting a fully-on cell sets `VF`. -/
  | onCollision
  /-- Turning a cell on sets `VF`. -/
  | onSet
  deriving DecidableEq, Repr

/-- `VF_ORDER` has no default (92_eei_decisions.md D12): one unknown value for the machine, so both outcomes are
admitted. Log entry 4, safe. -/
opaque Config.vfOrder : VfOrder

/-- The free byte of the `k`-th draw of Cxnn (42_alu.md R113, 92_eei_decisions.md D7): under no law. Log entry 3. -/
opaque Config.draw8 : Nat → Byte

end Sys2Proof
end

