-- ==== Sys2Proof/Machine/Parameters.lean ====
section
/-! DEFINITION. The parameters of the core and the values this hardware takes (00_scope.md R4), and the font
(20_memory.md R48). -/

namespace Sys2Proof.Machine

/-- The bytes of the Memory Image under a value of `MEM_SIZE` (R4, R28). -/
def bytesOf (size : MemSize) : Nat :=
  match size with
  | .bytes4096 => 4096
  | .bytes4095 => 4095

/-- `MEM_SIZE`: 4096 bytes, addresses 0x000 to 0xFFF (R4, 90_conflicts.md C1, D1). It is the default of the argument
`size` of every operation that checks an address, which takes the other admissible value too. Log entry 1. -/
def memSize : MemSize := .bytes4096

/-- `FONT_BASE` (R4, R47). -/
def fontBase : Nat := 0x050

/-- `ROM_BASE`: the load address and the reset value of `pc` (R4, R14). -/
def romBase : Nat := 0x200

/-- Glyphs 0 to 3 (R48). -/
def fontA : List Byte :=
  [0xF0, 0x90, 0x90, 0x90, 0xF0,
   0x20, 0x60, 0x20, 0x20, 0x70,
   0xF0, 0x10, 0xF0, 0x80, 0xF0,
   0xF0, 0x10, 0xF0, 0x10, 0xF0]

/-- Glyphs 4 to 7 (R48). -/
def fontB : List Byte :=
  [0x90, 0x90, 0xF0, 0x10, 0x10,
   0xF0, 0x80, 0xF0, 0x10, 0xF0,
   0xF0, 0x80, 0xF0, 0x90, 0xF0,
   0xF0, 0x10, 0x20, 0x40, 0x40]

/-- Glyphs 8 to B (R48). -/
def fontC : List Byte :=
  [0xF0, 0x90, 0xF0, 0x90, 0xF0,
   0xF0, 0x90, 0xF0, 0x10, 0xF0,
   0xF0, 0x90, 0xF0, 0x90, 0x90,
   0xE0, 0x90, 0xE0, 0x90, 0xE0]

/-- Glyphs C to F (R48). -/
def fontD : List Byte :=
  [0xF0, 0x80, 0x80, 0x80, 0xF0,
   0xE0, 0x90, 0x90, 0x90, 0xE0,
   0xF0, 0x80, 0xF0, 0x80, 0xF0,
   0xF0, 0x80, 0xF0, 0x80, 0x80]

/-- `FONT[0..79]`: the 80 glyph bytes, UNVERIFIED (R48; 93_implementation_defined.md G1). It is the default of the
argument `table` of the reset operation, which takes any other font too. Log entry 2. -/
def font : Font := ⟨(fontA ++ fontB ++ fontC ++ fontD).toArray, rfl⟩

/-- Bytes of one glyph (R47, R48): Fx29's factor 5. -/
def glyphBytes : Nat := 5

/-- The content of a memory byte right after a reset with the default font: `font` from `fontBase`, 0 elsewhere (R33,
R47). Memory is held as its differences from this; after a reset with another font its bytes are listed. Log entry 22. -/
def resetByte (a : Nat) : Byte := if fontBase ≤ a then font.toList.getD (a - fontBase) 0 else 0

/-- `STACK_DEPTH` (R4, R17). -/
abbrev stackDepth : Nat := 16

/-- `DISP_W` (R4, R22). -/
abbrev dispW : Nat := 64

/-- `DISP_H` (R4, R22). -/
abbrev dispH : Nat := 32

/-- `CELL_ON`: the fully-on value, the only logically on one (R4, R23, R24). -/
def cellOn : Byte := 255

/-- `CELL_CLEARED`: the just-cleared value (R4, R23). -/
def cellCleared : Byte := 254

/-- `DECAY_STEP` (R4, 44_display.md R135). -/
def decayStep : Byte := 60

/-- `DECAY_FLOOR` (R4, 44_display.md R135). -/
def decayFloor : Byte := 60

/-- `THROTTLE`: steps per frame of the reference schedule, the default of the argument of `referenceFrame`; no rule
depends on it (R4, 40_cycle.md R87). -/
def throttle : Nat := 10

/-- `VF_ORDER`, open (R4, 42_alu.md R114). Log entry 4. -/
def vfOrder : VfOrder := Config.vfOrder

/-- `KEY_INDEX_POLICY`, value `fault` (R4, 45_keypad_timers.md R151, D14). Log entry 5. -/
def keyIndexPolicy : KeyIndexPolicy := .fault

/-- `DRAW_VF`, value `on_collision` (R4, 90_conflicts.md C2, U9). Log entry 6, UNVERIFIED, unsafe. -/
def drawVf : DrawVf := .onCollision

end Sys2Proof.Machine
end

