-- ==== Sys2Proof/Machine/State.lean ====
section
/-! DEFINITION. The state of the core (10_state.md), the state after reset (R33), and the reasons a step can stop. -/

namespace Sys2Proof.Machine

/-- The display: `DISP[x][y]`, column `x` from the left, row `y` from the top (10_state.md R22). -/
abbrev Display := Vector (Vector Byte dispH) dispW

/-- The complete state of the core (10_state.md, the tuple before R10). -/
structure State where
  /-- `V[0..15]`; `V[0xF]` is `VF` (R10, R12). -/
  v : Vector Byte 16
  /-- The index register `I` (R13). -/
  i : Word
  /-- The program counter (R14). -/
  pc : Word
  /-- `SP`: the depth of the call stack, 0..16 (R17). -/
  sp : Fin 17
  /-- `STACK[0..15]`; the entries at `sp` and above are dead (R17). -/
  stack : Vector Word 16
  /-- `MEM`: the bytes that differ from their reset content, addresses rising (R28). Log entry 22. -/
  mem : List Host.Cell
  /-- `DISP[0..63][0..31]` (R22). -/
  disp : Display
  /-- The delay timer `DT` (R26). -/
  dt : Byte
  /-- The sound timer `ST` (R26). -/
  st : Byte
  /-- The keypad snapshot `KEY[0..15]` (R27). -/
  key : Vector Bool 16
  /-- THE MODEL'S OWN: how many random bytes have been drawn (R30, R113). Log entry 3. -/
  draws : Nat
  deriving DecidableEq, Repr

/-- The state after the reset operation (R33, 70_reset_and_hazards.md R180). The dead stack entries are DESIGN CHOICE 0
(D24, log entry 9), the display and the keypad the spec's decisions D5 and D6 (log entries 7 and 8), `draws` DESIGN
CHOICE 0 (log entry 3). -/
def State.reset : State where
  v := Vector.replicate 16 0
  i := 0
  pc := BitVec.ofNat 16 romBase
  sp := 0
  stack := Vector.replicate 16 0
  mem := []
  disp := Vector.replicate dispW (Vector.replicate dispH 0)
  dt := 0
  st := 0
  key := Vector.replicate 16 false
  draws := 0

/-- Why a step fails (60_exceptions.md R160, R161). A failure ends the run (R165): the caller gets the kind and nothing
in the core records it (R162). `pc` is the model's diagnostic (R8): where the program counter stands after the failing
step, the only piece of state such a step can change (R163). Log entry 10. -/
inductive Fault where
  /-- The fetched word matches no row of R66. Raised by the decode of a step (R83). Safe: the spec's own failure. -/
  | unknownOpcode (pc : Word)
  /-- `SP = 16` when a call executes. Raised by 2nnn (R92). Safe: the spec's own failure. -/
  | stackOverflow (pc : Word)
  /-- `SP = 0` when a return executes. Raised by 00EE (R90). Safe: the spec's own failure. -/
  | stackUnderflow (pc : Word)
  /-- An access outside the Memory Image. Raised by the fetch (R81) and by Fx33, Fx55, Fx65 and Dxyn (R161). Safe: the
  spec's own failure; the range check before the first access errs toward more faults (log entries 11 and 12). -/
  | outOfBounds (pc : Word)
  /-- A key number above 15. Raised by Ex9E and ExA1 (R151): the spec's model-level fault, not one of the hardware's
  failure kinds. Safe (log entry 5). -/
  | keyIndexOutOfRange (pc : Word)
  deriving DecidableEq, Repr

/-- Why an instruction has no meaning. -/
inductive Refusal where
  /-- An instruction of the table without a meaning yet. Raised by `exec`'s arms alone; safe. No arm raises it now. -/
  | notModelled (mnemonic : String)
  deriving DecidableEq, Repr

end Sys2Proof.Machine
end

