-- ==== Sys2Proof/Machine/Ops.lean ====
section
/-! DEFINITION. The named operations over the pieces of the state: registers, program counter, stack, memory, display,
keypad, and the one way a step fails (00_scope.md R8, 10_state.md, 20_memory.md, 60_exceptions.md R160). -/

namespace Sys2Proof.Machine

/-- What one instruction answers. -/
abbrev Answer := Host.Outcome State Fault Refusal

/-! ## General registers (R10, R11) -/

/-- `VF`, the flag register (R12). -/
def vf : Reg := 0xF

/-- The registers in ascending order. -/
def allRegs : List Reg := [0, 1, 2, 3, 4, 5, 6, 7, 8, 9, 10, 11, 12, 13, 14, 15]

/-- `V0` to `Vx`, ascending (43_index_memory.md R124). -/
def regsUpTo (x : Reg) : List Reg := allRegs.filter (fun r => decide (r ≤ x))

/-- `V[r]`. -/
def State.reg (s : State) (r : Reg) : Byte := s.v[r.val]

/-- `V[r] <- b`. -/
def State.setReg (s : State) (r : Reg) (b : Byte) : State := { s with v := s.v.set r.val b }

/-! ## Index register, program counter, timers -/

/-- `I <- w` (R13). -/
def State.setI (s : State) (w : Word) : State := { s with i := w }

/-- `pc <- w` (R14); no target is checked (41_flow.md R98 d). -/
def State.setPc (s : State) (w : Word) : State := { s with pc := w }

/-- The advance before the semantics, and a skip: `pc <- pc + 2` modulo 65536 (40_cycle.md R82, 41_flow.md R99). -/
def State.advance (s : State) : State := s.setPc (s.pc + 2)

/-- The skip of the six skip instructions when their condition holds (41_flow.md R99). -/
def State.skipIf (s : State) (c : Bool) : State := if c then s.advance else s

/-- The retry of Fx0A: `pc <- pc - 2` (45_keypad_timers.md R142). -/
def State.rewind (s : State) : State := s.setPc (s.pc - 2)

/-- `DT <- b` (R26). -/
def State.setDt (s : State) (b : Byte) : State := { s with dt := b }

/-- `ST <- b` (R26). -/
def State.setSt (s : State) (b : Byte) : State := { s with st := b }

/-! ## Failures (60_exceptions.md) -/

/-- `raise E` of R160: the step ends at once with the failure, performs no further read or write and saves nothing
(R162, R167). There is no handler, no vector and no return from one. `pc` stands where it stands (R163). -/
def raise (kind : Word → Fault) (s : State) : Answer := .fault (kind s.pc)

/-! ## The call stack (R17) -/

/-- `STACK[k]`. -/
def State.entry (s : State) (k : Fin 16) : Word := s.stack[k.val]

/-- `Push(a)` (R20): `none` is `StackOverflow`, with nothing changed. -/
def push (a : Word) (s : State) : Option State :=
  if h : s.sp.val < stackDepth then
    some { s with stack := s.stack.set s.sp.val a, sp := ⟨s.sp.val + 1, Nat.succ_lt_succ h⟩ }
  else none

/-- `Pop()` (R21): the former top and the state with one entry less; `none` is `StackUnderflow`. The popped entry stays
in the array as a dead entry. -/
def pop (s : State) : Option (Word × State) :=
  if h : 0 < s.sp.val then
    some (s.stack[s.sp.val - 1]'(by omega), { s with sp := ⟨s.sp.val - 1, by omega⟩ })
  else none

/-! ## Memory (20_memory.md) -/

/-- The byte at an address; an address the list does not name reads as its reset content. -/
def Memory.get (m : List Host.Cell) (a : Nat) : Byte :=
  match m with
  | [] => resetByte a
  | (b, v) :: rest => if a = b then v else Memory.get rest a

/-- Put a cell before the first cell of a higher address. -/
def Memory.insert (m : List Host.Cell) (a : Nat) (v : Byte) : List Host.Cell :=
  match m with
  | [] => [(a, v)]
  | (b, w) :: rest => if a < b then (a, v) :: (b, w) :: rest else (b, w) :: Memory.insert rest a v

/-- The cells of other addresses. -/
def Memory.erase (m : List Host.Cell) (a : Nat) : List Host.Cell := m.filter (fun c => decide (c.1 ≠ a))

/-- `MEM[a] <- v`, in canonical form: a byte at its reset content is not listed. -/
def Memory.set (m : List Host.Cell) (a : Nat) (v : Byte) : List Host.Cell :=
  if v = resetByte a then Memory.erase m a else Memory.insert (Memory.erase m a) a v

/-- Bytes stored at `a`, `a + 1`, ..., in ascending address order (R42). -/
def Memory.setBytes (m : List Host.Cell) (a : Nat) (bytes : List Byte) : List Host.Cell :=
  match bytes with
  | [] => m
  | b :: rest => Memory.setBytes (Memory.set m a b) (a + 1) rest

/-- The `count` bytes at `a`, `a + 1`, ..., in ascending address order (R42). -/
def Memory.getBytes (m : List Host.Cell) (a count : Nat) : List Byte :=
  (List.range count).map (fun k => Memory.get m (a + k))

/-- The canonical form: addresses strictly rising, each in the Memory Image, no byte equal to its reset content. -/
abbrev Memory.wf (m : List Host.Cell) (size : MemSize := memSize) : Prop :=
  m.Pairwise (fun c d => c.1 < d.1) ∧ ∀ c ∈ m, c.1 < bytesOf size ∧ c.2 ≠ resetByte c.1

/-- `MEM[a]`. -/
def State.byte (s : State) (a : Nat) : Byte := Memory.get s.mem a

/-- Bytes stored from an address upward. -/
def State.setBytes (s : State) (a : Nat) (bytes : List Byte) : State := { s with mem := Memory.setBytes s.mem a bytes }

/-- Every access of the range `a .. a + count - 1` is legal (R45); the range is checked as a whole, before the first
access, and its addresses are not wrapped (R46, D9, D26). Log entries 11 and 12. -/
abbrev inRange (a count : Nat) (size : MemSize := memSize) : Prop :=
  count = 0 ∨ a + (count - 1) ≤ bytesOf size - 1

/-- The fetch (40_cycle.md R81, 20_memory.md R40): the byte at `pc` is the high byte, the byte at `pc + 1` the low one;
`none` is `OutOfBounds`. Any `pc` is fetched from, even or odd (R44). -/
def fetchWord (s : State) (size : MemSize := memSize) : Option Word :=
  if inRange s.pc.toNat 2 size then some (wordOfBytes (s.byte s.pc.toNat) (s.byte (s.pc.toNat + 1))) else none

/-- Store a word where the next fetch reads it, in the order the fetch reads (R40). A `pc` from which nothing can be
fetched leaves the state as it is. Log entry 27. -/
def storeAtPc (s : State) (w : Word) : State :=
  if inRange s.pc.toNat 2 then s.setBytes s.pc.toNat (bytesOfWord w) else s

/-- Registers loaded from consecutive bytes, ascending (43_index_memory.md R125). -/
def loadRegsFrom (a : Nat) (regs : List Reg) (s : State) : State :=
  match regs with
  | [] => s
  | r :: rest => loadRegsFrom (a + 1) rest (s.setReg r (s.byte a))

/-! ## The display (R22 to R24) -/

/-- `DISP[x][y]`. -/
def Display.cell (d : Display) (x : Fin 64) (y : Fin 32) : Byte := d[x.val][y.val]

/-- `DISP[x][y] <- b`. -/
def Display.setCell (d : Display) (x : Fin 64) (y : Fin 32) (b : Byte) : Display :=
  d.set x.val (d[x.val].set y.val b)

/-- Every cell replaced by a function of its value. -/
def Display.mapCells (f : Byte → Byte) (d : Display) : Display :=
  ⟨(d.toList.map (fun col => (⟨(col.toList.map f).toArray, by simp⟩ : Vector Byte dispH))).toArray, by simp⟩

/-- `DISP <- d`. -/
def State.setDisp (s : State) (d : Display) : State := { s with disp := d }

/-- `DISP[x][y]` of the state. -/
def State.cell (s : State) (x : Fin 64) (y : Fin 32) : Byte := Display.cell s.disp x y

/-- What 00E0 does to a cell: fully on becomes just cleared, anything else stays (44_display.md R130, R133). -/
def clearCell (b : Byte) : Byte := if b = cellOn then cellCleared else b

/-- What a sprite bit that is 1 does to a cell: on is toggled off, anything else is turned on (R131, R133). -/
def toggleCell (b : Byte) : Byte := if b = cellOn then cellCleared else cellOn

/-- What Decay does to a cell strictly between the floor and fully on (R135, R133). -/
def decayCell (b : Byte) : Byte := if decayFloor < b ∧ b < cellOn then b - decayStep else b

/-! ## The keypad (R27) -/

/-- `KEY[k]`. -/
def State.pressed (s : State) (k : Reg) : Bool := s.key[k.val]

/-- `KEY <- k`, all 16 bits at once (45_keypad_timers.md R150). -/
def State.setKey (s : State) (k : Vector Bool 16) : State := { s with key := k }

/-- The lowest-indexed pressed key (45_keypad_timers.md R142). -/
def firstPressed (s : State) : Option Reg := allRegs.find? s.pressed

/-- A key number as the byte Fx0A stores. -/
def keyByte (k : Reg) : Byte := BitVec.ofNat 8 k.val

/-! ## The random input (R30, 42_alu.md R113) -/

/-- The free byte of the next draw. -/
def nextDraw (s : State) : Byte := Config.draw8 s.draws

/-- The state after a draw: the next one is another free byte. -/
def State.drawn (s : State) : State := { s with draws := s.draws + 1 }

end Sys2Proof.Machine
end

