-- ==== Sys2Proof/Machine/Flags.lean ====
section
/-! DEFINITION. The flag computations (10_state.md R12) and the one write of a result and its flag (42_alu.md R106 to
R110, R114). -/

namespace Sys2Proof.Machine

/-- A flag is 1 or 0 (R12). -/
def flagOf (c : Bool) : Byte := if c then 1 else 0

/-- 8xy4: the carry out of the 8-bit addition (42_alu.md R106). -/
def carryFlag (a b : Byte) : Byte := flagOf (decide (a.toNat + b.toNat > 255))

/-- 8xy5 and 8xy7: the minuend is strictly greater than the subtrahend (R107, R109). -/
def greaterFlag (minuend subtrahend : Byte) : Byte := flagOf (decide (minuend.toNat > subtrahend.toNat))

/-- 8xy6: the bit shifted out at the right (R108). -/
def lowBitFlag (a : Byte) : Byte := flagOf (a.getLsbD 0)

/-- 8xyE: the bit shifted out at the left (R110). -/
def highBitFlag (a : Byte) : Byte := flagOf (a.getLsbD 7)

/-- What `VF` ends as when it is both destination and flag: the order of the two writes is open (R114, D12). Log entry
4, safe: both outcomes are admitted. -/
def openVf (result flag : Byte) : Byte :=
  match vfOrder with
  | .flagLast => flag
  | .resultLast => result

/-- Write a result to `Vx` and its flag to `VF` (R106 to R110; for `x = 0xF` R114). -/
def State.setRegFlag (s : State) (x : Reg) (result flag : Byte) : State :=
  if x = vf then s.setReg vf (openVf result flag) else (s.setReg x result).setReg vf flag

end Sys2Proof.Machine
end

