-- ==== Sys2Proof/Machine/Operands.lean ====
section
/-! DEFINITION. The operand forms (30_encoding.md R63, 43_index_memory.md R126): immediates, the one data addressing
mode, the glyph address, the key number, the start of a sprite. -/

namespace Sys2Proof.Machine

/-- `zext_16(nnn)` (R63). -/
def addrOf (nnn : Addr12) : Word := nnn.setWidth 16

/-- `zext_16` of a byte (R63). -/
def zext16 (b : Byte) : Word := b.setWidth 16

/-- The effective address `I + k`, the mathematical sum (20_memory.md R46, R126). -/
def effAddr (s : State) (k : Nat) : Nat := s.i.toNat + k

/-- The target of Bnnn: `nnn + V0` in 16 bits, not reduced to 12 (41_flow.md R97). -/
def offsetTarget (s : State) (nnn : Addr12) : Word := addrOf nnn + zext16 (s.reg 0)

/-- The address of the glyph of a byte, the whole byte and not its low nibble (43_index_memory.md R122, D15). -/
def glyphAddr (b : Byte) : Word := BitVec.ofNat 16 fontBase + BitVec.ofNat 16 glyphBytes * zext16 b

/-- The key a byte names (45_keypad_timers.md R151): a byte above 15 names none under the policy `fault`. -/
def keyOf (b : Byte) : Option Reg :=
  if h : b.toNat < 16 then some ⟨b.toNat, h⟩
  else
    match keyIndexPolicy with
    | .fault => none
    | .mask4 => some ⟨b.toNat % 16, Nat.mod_lt _ (by decide)⟩

/-- The start column `Vx mod 64` of a sprite (44_display.md R131). -/
def startX (s : State) (x : Reg) : Nat := (s.reg x).toNat % dispW

/-- The start row `Vy mod 32` of a sprite (44_display.md R131). -/
def startY (s : State) (y : Reg) : Nat := (s.reg y).toNat % dispH

/-- The decimal digits hundreds, tens, units of a byte (43_index_memory.md R123). -/
def bcdDigits (b : Byte) : List Byte :=
  [BitVec.ofNat 8 (b.toNat / 100), BitVec.ofNat 8 (b.toNat / 10 % 10), BitVec.ofNat 8 (b.toNat % 10)]

end Sys2Proof.Machine
end

