-- ==== Sys2Proof/Machine/Alu.lean ====
section
/-! DEFINITION. Load immediate, arithmetic, logic, shifts and random (42_alu.md R100 to R115). Operands are read before
anything is written (40_cycle.md R85 a). -/

namespace Sys2Proof.Machine

/-- `6xnn` (R100). -/
def execLdImm (x : Reg) (nn : Byte) (s : State) : Answer := .next (s.setReg x nn)

/-- `7xnn` (R101): no flag. -/
def execAddImm (x : Reg) (nn : Byte) (s : State) : Answer := .next (s.setReg x (s.reg x + nn))

/-- `8xy0` (R102). -/
def execLdReg (x y : Reg) (s : State) : Answer := .next (s.setReg x (s.reg y))

/-- `8xy1` (R103): `VF` is not written (D13). -/
def execOrReg (x y : Reg) (s : State) : Answer := .next (s.setReg x (s.reg x ||| s.reg y))

/-- `8xy2` (R104): `VF` is not written (D13). -/
def execAndReg (x y : Reg) (s : State) : Answer := .next (s.setReg x (s.reg x &&& s.reg y))

/-- `8xy3` (R105): `VF` is not written (D13). -/
def execXorReg (x y : Reg) (s : State) : Answer := .next (s.setReg x (s.reg x ^^^ s.reg y))

/-- `8xy4` (R106). -/
def execAddReg (x y : Reg) (s : State) : Answer :=
  .next (s.setRegFlag x (s.reg x + s.reg y) (carryFlag (s.reg x) (s.reg y)))

/-- `8xy5` (R107). -/
def execSub (x y : Reg) (s : State) : Answer :=
  .next (s.setRegFlag x (s.reg x - s.reg y) (greaterFlag (s.reg x) (s.reg y)))

/-- `8xy6` (R108): `Vy` takes no part (30_encoding.md R67). -/
def execShr (x : Reg) (s : State) : Answer := .next (s.setRegFlag x (s.reg x >>> 1) (lowBitFlag (s.reg x)))

/-- `8xy7` (R109). -/
def execSubn (x y : Reg) (s : State) : Answer :=
  .next (s.setRegFlag x (s.reg y - s.reg x) (greaterFlag (s.reg y) (s.reg x)))

/-- `8xyE` (R110): `Vy` takes no part (30_encoding.md R67). -/
def execShl (x : Reg) (s : State) : Answer := .next (s.setRegFlag x (s.reg x <<< 1) (highBitFlag (s.reg x)))

/-- `Cxnn` (R111): the byte drawn is free (R113). -/
def execRnd (x : Reg) (nn : Byte) (s : State) : Answer := .next (s.drawn.setReg x (nextDraw s &&& nn))

end Sys2Proof.Machine
end

