-- ==== Sys2Proof/Machine/ControlFlow.lean ====
section
/-! DEFINITION. Control transfer (41_flow.md R90 to R99). In every meaning `s.pc` is the advanced value `pc0 + 2`
(40_cycle.md R82). -/

namespace Sys2Proof.Machine

/-- `00EE` (R90). -/
def execRet (s : State) : Answer :=
  match pop s with
  | none => raise .stackUnderflow s
  | some (target, s') => .next (s'.setPc target)

/-- `1nnn` (R91). -/
def execJp (nnn : Addr12) (s : State) : Answer := .next (s.setPc (addrOf nnn))

/-- `2nnn` (R92): the return address pushed is the advanced `pc`. -/
def execCall (nnn : Addr12) (s : State) : Answer :=
  match push s.pc s with
  | none => raise .stackOverflow s
  | some s' => .next (s'.setPc (addrOf nnn))

/-- `3xnn` (R93). -/
def execSeImm (x : Reg) (nn : Byte) (s : State) : Answer := .next (s.skipIf (decide (s.reg x = nn)))

/-- `4xnn` (R94). -/
def execSneImm (x : Reg) (nn : Byte) (s : State) : Answer := .next (s.skipIf (decide (s.reg x ≠ nn)))

/-- `5xy0` (R95). -/
def execSeReg (x y : Reg) (s : State) : Answer := .next (s.skipIf (decide (s.reg x = s.reg y)))

/-- `9xy0` (R96). -/
def execSneReg (x y : Reg) (s : State) : Answer := .next (s.skipIf (decide (s.reg x ≠ s.reg y)))

/-- `Bnnn` (R97). -/
def execJpV0 (nnn : Addr12) (s : State) : Answer := .next (s.setPc (offsetTarget s nnn))

end Sys2Proof.Machine
end

