-- ==== Sys2Proof/Machine/Drawing.lean ====
section
/-! DEFINITION. The display instructions (44_display.md R130 to R133), written as the loops of the spec's pseudocode. -/

namespace Sys2Proof.Machine

/-- What a draw writes: the display and `VF`. -/
structure Canvas where
  disp : Display
  flag : Byte
  deriving DecidableEq, Repr

/-- One sprite bit that is 1 at column `xx`, row `yy`: clipped outside the grid, else the cell is toggled and the flag
set by the event `DRAW_VF` names (R131, R132 a). -/
def drawPixel (xx yy : Nat) (c : Canvas) : Canvas :=
  if h : xx < dispW ∧ yy < dispH then
    let old := Display.cell c.disp ⟨xx, h.1⟩ ⟨yy, h.2⟩
    let sets : Bool :=
      match drawVf with
      | .onCollision => decide (old = cellOn)
      | .onSet => decide (old ≠ cellOn)
    { disp := Display.setCell c.disp ⟨xx, h.1⟩ ⟨yy, h.2⟩ (toggleCell old)
      flag := if sets then 1 else c.flag }
  else c

/-- One sprite row from its most significant bit, bit 7 at column `x0` (R131). -/
def drawRow (x0 yy : Nat) (row : Byte) (c : Canvas) : Canvas :=
  (List.range 8).foldl (fun c b => if row.getLsbD (7 - b) then drawPixel (x0 + b) yy c else c) c

/-- The sprite rows from the top, row `r` at display row `y0 + r` (R131). -/
def drawRows (x0 y0 : Nat) (rows : List Byte) (c : Canvas) : Canvas :=
  match rows with
  | [] => c
  | row :: rest => drawRows x0 (y0 + 1) rest (drawRow x0 y0 row c)

/-- `00E0` (R130). -/
def execCls (s : State) : Answer := .next (s.setDisp (Display.mapCells clearCell s.disp))

/-- `Dxyn` (R131, R132): the start is read before `VF` is reset (D17), all `n` rows are range-checked (D16). -/
def execDrw (x y : Reg) (n : Nat) (s : State) (size : MemSize := memSize) : Answer :=
  if inRange (effAddr s 0) n size then
    let c := drawRows (startX s x) (startY s y) (Memory.getBytes s.mem (effAddr s 0) n) { disp := s.disp, flag := 0 }
    .next ((s.setDisp c.disp).setReg vf c.flag)
  else raise .outOfBounds s

end Sys2Proof.Machine
end

