-- ==== Sys2Proof/Machine/IndexMemory.lean ====
section
/-! DEFINITION. The index register and memory (43_index_memory.md R120 to R126). The whole range is checked before the
first access (20_memory.md R46). -/

namespace Sys2Proof.Machine

/-- `Annn` (R120). -/
def execLdI (nnn : Addr12) (s : State) : Answer := .next (s.setI (addrOf nnn))

/-- `Fx1E` (R121): modulo 65536, no flag, no failure (D25). -/
def execAddI (x : Reg) (s : State) : Answer := .next (s.setI (s.i + zext16 (s.reg x)))

/-- `Fx29` (R122). -/
def execLdF (x : Reg) (s : State) : Answer := .next (s.setI (glyphAddr (s.reg x)))

/-- `Fx33` (R123). -/
def execLdB (x : Reg) (s : State) (size : MemSize := memSize) : Answer :=
  if inRange (effAddr s 0) 3 size then .next (s.setBytes (effAddr s 0) (bcdDigits (s.reg x)))
  else raise .outOfBounds s

/-- `Fx55` (R124). -/
def execStoreRegs (x : Reg) (s : State) (size : MemSize := memSize) : Answer :=
  if inRange (effAddr s 0) (x.val + 1) size then .next (s.setBytes (effAddr s 0) ((regsUpTo x).map s.reg))
  else raise .outOfBounds s

/-- `Fx65` (R125). -/
def execLoadRegs (x : Reg) (s : State) (size : MemSize := memSize) : Answer :=
  if inRange (effAddr s 0) (x.val + 1) size then .next (loadRegsFrom (effAddr s 0) (regsUpTo x) s)
  else raise .outOfBounds s

end Sys2Proof.Machine
end

