-- ==== Sys2Proof/Machine/KeypadTimers.lean ====
section
/-! DEFINITION. The keypad and timer instructions (45_keypad_timers.md R140 to R145). -/

namespace Sys2Proof.Machine

/-- `Ex9E` (R140, R151). -/
def execSkp (x : Reg) (s : State) : Answer :=
  match keyOf (s.reg x) with
  | some k => .next (s.skipIf (s.pressed k))
  | none => raise .keyIndexOutOfRange s

/-- `ExA1` (R141, R151). -/
def execSknp (x : Reg) (s : State) : Answer :=
  match keyOf (s.reg x) with
  | some k => .next (s.skipIf (!s.pressed k))
  | none => raise .keyIndexOutOfRange s

/-- `Fx07` (R143). -/
def execLdVxDt (x : Reg) (s : State) : Answer := .next (s.setReg x s.dt)

/-- `Fx0A` (R142): a success in both cases. -/
def execLdVxK (x : Reg) (s : State) : Answer :=
  match firstPressed s with
  | some k => .next (s.setReg x (keyByte k))
  | none => .next s.rewind

/-- `Fx15` (R144). -/
def execLdDtVx (x : Reg) (s : State) : Answer := .next (s.setDt (s.reg x))

/-- `Fx18` (R145). -/
def execLdStVx (x : Reg) (s : State) : Answer := .next (s.setSt (s.reg x))

end Sys2Proof.Machine
end

