-- ==== Sys2Proof/Machine/Cycle.lean ====
section
/-! DEFINITION. The fetch-decode-execute cycle (40_cycle.md R80 to R84). -/

namespace Sys2Proof.Machine

/-- The phases after the fetch (R80): advance (R82), decode (R83), execute. A failed fetch changes nothing; an unknown
word leaves `pc` advanced (R163). -/
def finishCycle (fetched : Option Word) (execute : Instr → State → Answer) (s : State) : Answer :=
  match fetched with
  | none => raise .outOfBounds s
  | some w =>
    match decodeWord w with
    | none => raise .unknownOpcode s.advance
    | some i => execute i s.advance

/-- execute-one-instruction (R80): fetch (R81) and the phases after it. -/
def cycle (s : State) : Answer := finishCycle (fetchWord s) exec s

/-- The meanings under either admissible value of `MEM_SIZE` (00_scope.md R4, D1): the four that check a range of
addresses take it, the others do not depend on it. -/
def execIn (size : MemSize) (i : Instr) (s : State) : Answer :=
  match i with
  | .drw x y n => execDrw x y n s size
  | .ldB x => execLdB x s size
  | .storeRegs x => execStoreRegs x s size
  | .loadRegs x => execLoadRegs x s size
  | .cls | .ret | .jp _ | .call _ | .seImm _ _ | .sneImm _ _ | .seReg _ _ | .ldImm _ _ | .addImm _ _ | .ldReg _ _
  | .orReg _ _ | .andReg _ _ | .xorReg _ _ | .addReg _ _ | .sub _ _ | .shr _ _ | .subn _ _ | .shl _ _ | .sneReg _ _
  | .ldI _ | .jpV0 _ | .rnd _ _ | .skp _ | .sknp _ | .ldVxDt _ | .ldVxK _ | .ldDtVx _ | .ldStVx _ | .addI _
  | .ldF _ => exec i s

/-- execute-one-instruction under either admissible value of `MEM_SIZE`; under `memSize` it is `cycle`. -/
def cycleIn (size : MemSize) (s : State) : Answer := finishCycle (fetchWord s size) (execIn size) s

end Sys2Proof.Machine
end

