-- ==== Sys2Proof/Machine/Step.lean ====
section
/-! DEFINITION. The step (40_cycle.md R80) and the placing of a word where it fetches. -/

namespace Sys2Proof.Machine

/-- One step: one invocation of execute-one-instruction. -/
def step (s : State) : Host.Outcome State Fault Refusal := cycle s

/-- The state with the word the table numbers as `w` stored where the next step fetches. Log entries 13 and 27. -/
def State.withFetchWord (s : State) (nbits w : Nat) : State := storeAtPc s (tableWord nbits w)

end Sys2Proof.Machine
end

