-- ==== Sys2Proof/Machine/HostOps.lean ====
section
/-! DEFINITION. The operations the host driver invokes between steps (40_cycle.md R86): each one atomic, on the state
of the core. -/

namespace Sys2Proof.Machine

/-- `Reset` (70_reset_and_hazards.md R180): every piece of state at its reset value, the glyphs of `table` in the font
area (20_memory.md R48, log entry 2). The counter of draws is no state of the core and goes on, so that no draw is drawn
twice (N7: nothing repeats across resets). Log entry 3. -/
def resetOp (s : State) (table : Font := font) : State :=
  { State.reset with mem := Memory.setBytes State.reset.mem fontBase table.toList, draws := s.draws }

/-- `LoadRom(bytes)` (R184): `none` is `RomLoadFailure`, with nothing written. -/
def loadRom (bytes : List Byte) (s : State) (size : MemSize := memSize) : Option State :=
  if romBase + bytes.length ≤ bytesOf size then some (s.setBytes romBase bytes) else none

/-- `LoadKeys(k)` (45_keypad_timers.md R150): all 16 bits at once. -/
def loadKeys (k : Vector Bool 16) (s : State) : State := s.setKey k

/-- One timer, one tick: it never goes below 0 (R152, R26). -/
def countDown (b : Byte) : Byte := if b = 0 then 0 else b - 1

/-- `Tick` (R152). -/
def tick (s : State) : State := (s.setDt (countDown s.dt)).setSt (countDown s.st)

/-- `Decay` (44_display.md R135). -/
def decay (s : State) : State := s.setDisp (Display.mapCells decayCell s.disp)

/-- `ReadCell(x, y)` (R137): the byte, nothing changed. -/
def readCell (x : Fin 64) (y : Fin 32) (s : State) : Byte := s.cell x y

end Sys2Proof.Machine
end

