-- ==== Sys2Proof/Machine/Interface.lean ====
section
/-! DEFINITION. The hardware block as its driver sees it (40_cycle.md R86 to R88): the seven operations, which of them
may be invoked when, what each returns, and the reference schedule. -/

namespace Sys2Proof.Machine

/-- What a step returns to its caller (60_exceptions.md R161); `keyIndexOutOfRange` is the model-level fault of R151. -/
inductive Result where
  | ok
  | unknownOpcode
  | stackOverflow
  | stackUnderflow
  | outOfBounds
  | keyIndexOutOfRange
  deriving DecidableEq, Repr

/-- The numeric codes of R161 (D10); the model-level fault has none. Log entry 24. -/
def resultCode (r : Result) : Option Nat :=
  match r with
  | .ok => some 0
  | .unknownOpcode => some 1
  | .stackOverflow => some 2
  | .stackUnderflow => some 3
  | .outOfBounds => some 4
  | .keyIndexOutOfRange => none

/-- The kind a fault reports: the kind alone (R162). -/
def faultResult (f : Fault) : Result :=
  match f with
  | .unknownOpcode _ => .unknownOpcode
  | .stackOverflow _ => .stackOverflow
  | .stackUnderflow _ => .stackUnderflow
  | .outOfBounds _ => .outOfBounds
  | .keyIndexOutOfRange _ => .keyIndexOutOfRange

/-- Where `pc` stands after a failing step (R163). -/
def faultPc (f : Fault) : Word :=
  match f with
  | .unknownOpcode pc => pc
  | .stackOverflow pc => pc
  | .stackUnderflow pc => pc
  | .outOfBounds pc => pc
  | .keyIndexOutOfRange pc => pc

/-- What the model keeps around the core (no state of the hardware): which operations are open. Log entry 15. -/
inductive Phase where
  /-- Constructed, not yet reset: only `Reset` is applicable (10_state.md R34). -/
  | constructed
  /-- After a `Reset`. -/
  | ready
  /-- A step failed: no step is taken until `Reset` (60_exceptions.md R165). -/
  | failed (r : Result)
  /-- A ROM load failed: startup is aborted, no step is taken until `Reset` (70_reset_and_hazards.md R184). -/
  | aborted
  deriving DecidableEq, Repr

/-- The block: the core and what is open to the host. -/
structure Block where
  core : State
  phase : Phase
  deriving DecidableEq, Repr

/-- The seven operations of R86. A coordinate outside the grid is no move of the host (44_display.md R137). -/
inductive HostOp where
  | reset
  | loadRom (bytes : List Byte)
  | loadKeys (k : Vector Bool 16)
  | tick
  | step
  | decay
  | readCell (x : Fin 64) (y : Fin 32)
  deriving DecidableEq, Repr

/-- What an operation returns (R86). -/
inductive Reply where
  | nothing
  | loaded
  | romLoadFailure
  | result (r : Result)
  | cell (b : Byte)
  deriving DecidableEq, Repr

/-- `Step` as the caller sees it: the result, and the state it leaves; a failing step moves at most `pc` (R84, R163). -/
def stepOp (b : Block) (size : MemSize := memSize) : Block × Reply :=
  match cycleIn size b.core with
  | .next s => ({ b with core := s }, .result .ok)
  | .fault f => ({ core := b.core.setPc (faultPc f), phase := .failed (faultResult f) }, .result (faultResult f))
  | .refused _ => (b, .nothing)

/-- `LoadRom` as the caller sees it (R184). -/
def loadRomOp (bytes : List Byte) (b : Block) (size : MemSize := memSize) : Block × Reply :=
  match loadRom bytes b.core size with
  | some s => ({ b with core := s }, .loaded)
  | none => ({ b with phase := .aborted }, .romLoadFailure)

/-- One operation; `none` is a move the host does not have in this phase (R34, R165, R184). -/
def perform (op : HostOp) (b : Block) (size : MemSize := memSize) (table : Font := font) : Option (Block × Reply) :=
  match op with
  | .reset => some ({ core := resetOp b.core table, phase := .ready }, .nothing)
  | .loadRom bytes => if b.phase = .ready then some (loadRomOp bytes b size) else none
  | .loadKeys k => if b.phase = .constructed then none else some ({ b with core := loadKeys k b.core }, .nothing)
  | .tick => if b.phase = .constructed then none else some ({ b with core := tick b.core }, .nothing)
  | .step => if b.phase = .ready then some (stepOp b size) else none
  | .decay => if b.phase = .constructed then none else some ({ b with core := decay b.core }, .nothing)
  | .readCell x y => if b.phase = .constructed then none else some (b, .cell (readCell x y b.core))

/-- A run under a schedule: the operations in the order the host invokes them (R87). The schedule is the argument;
`none` is a schedule with a move the host does not have. -/
def runSchedule (ops : List HostOp) (b : Block) (size : MemSize := memSize) (table : Font := font) : Option Block :=
  match ops with
  | [] => some b
  | op :: rest =>
    match perform op b size table with
    | some (b', _) => runSchedule rest b' size table
    | none => none

/-- The display read of a frame: every cell once (44_display.md R137), row by row. -/
def displayRead : List HostOp :=
  (List.finRange dispH).flatMap (fun y => (List.finRange dispW).map (fun x => .readCell x y))

/-- One frame of the reference schedule, the reference value of `SCHEDULE` (R87, D21): keys, one tick, `THROTTLE`
steps, display read, decay. -/
def referenceFrame (keys : Vector Bool 16) (steps : Nat := throttle) : List HostOp :=
  [.loadKeys keys, .tick] ++ List.replicate steps .step ++ displayRead ++ [.decay]

/-- The boot sequence (70_reset_and_hazards.md R185). -/
def bootSequence (rom : List Byte) : List HostOp := [.reset, .loadRom rom]

end Sys2Proof.Machine
end

