-- ==== Sys2Proof/Safety.lean ====
section
/-! DEFINITION. The terms claims are stated in: the pieces of the state one by one, what an operation leaves unchanged,
the access matrix of 10_state.md R35, safe runs (60_exceptions.md R165), and the invariants of the machine. -/

namespace Sys2Proof.Machine

/-! ## The pieces of the state -/

/-- One piece of the state (10_state.md, the tuple before R10), and the model's counter of draws. -/
inductive Piece where
  | reg (r : Reg)
  | index
  | pc
  | sp
  | entry (k : Fin 16)
  | byte (a : Nat)
  | cell (x : Fin 64) (y : Fin 32)
  | dt
  | st
  | key (k : Reg)
  | draws
  deriving DecidableEq, Repr

/-- The value of a piece, as a number. -/
def State.read (s : State) (p : Piece) : Nat :=
  match p with
  | .reg r => (s.reg r).toNat
  | .index => s.i.toNat
  | .pc => s.pc.toNat
  | .sp => s.sp.val
  | .entry k => (s.entry k).toNat
  | .byte a => (s.byte a).toNat
  | .cell x y => (s.cell x y).toNat
  | .dt => s.dt.toNat
  | .st => s.st.toNat
  | .key k => (s.pressed k).toNat
  | .draws => s.draws

/-- Every piece but those of `w` holds in `t` what it holds in `s`; with `w` false, all of them. -/
def Frame (w : Piece → Prop) (s t : State) : Prop := ∀ p : Piece, ¬ w p → t.read p = s.read p

/-- The columns V and VF of R35 for a result in `Vx` and a flag. -/
def regOrFlag (x : Reg) (p : Piece) : Prop := p = .reg x ∨ p = .reg vf

/-- The pieces an instruction may write, started in `s` (10_state.md R35, with the registers, stack entries and bytes
R11, R20 and R126 name in each column). -/
def writes (i : Instr) (s : State) (p : Piece) : Prop :=
  match i with
  | .cls => ∃ cx cy, p = .cell cx cy
  | .ret => p = .pc ∨ p = .sp
  | .jp _ => p = .pc
  | .call _ => p = .pc ∨ p = .sp ∨ ∃ k : Fin 16, k.val = s.sp.val ∧ p = .entry k
  | .seImm _ _ => p = .pc
  | .sneImm _ _ => p = .pc
  | .seReg _ _ => p = .pc
  | .ldImm x _ => p = .reg x
  | .addImm x _ => p = .reg x
  | .ldReg x _ => p = .reg x
  | .orReg x _ => p = .reg x
  | .andReg x _ => p = .reg x
  | .xorReg x _ => p = .reg x
  | .addReg x _ => regOrFlag x p
  | .sub x _ => regOrFlag x p
  | .shr x _ => regOrFlag x p
  | .subn x _ => regOrFlag x p
  | .shl x _ => regOrFlag x p
  | .sneReg _ _ => p = .pc
  | .ldI _ => p = .index
  | .jpV0 _ => p = .pc
  | .rnd x _ => p = .reg x ∨ p = .draws
  | .drw _ _ _ => p = .reg vf ∨ ∃ cx cy, p = .cell cx cy
  | .skp _ => p = .pc
  | .sknp _ => p = .pc
  | .ldVxDt x => p = .reg x
  | .ldVxK x => p = .reg x ∨ p = .pc
  | .ldDtVx _ => p = .dt
  | .ldStVx _ => p = .st
  | .addI _ => p = .index
  | .ldF _ => p = .index
  | .ldB _ => ∃ k, k < 3 ∧ p = .byte (effAddr s k)
  | .storeRegs x => ∃ k, k ≤ x.val ∧ p = .byte (effAddr s k)
  | .loadRegs x => ∃ r : Reg, r ≤ x ∧ p = .reg r

/-! ## Failures and runs -/

/-- Why an instruction fails in a state, if it does (60_exceptions.md R161; the key number 45_keypad_timers.md R151). -/
def failureOf (i : Instr) (s : State) : Option Result :=
  match i with
  | .ret => if s.sp.val = 0 then some .stackUnderflow else none
  | .call _ => if s.sp.val = 16 then some .stackOverflow else none
  | .ldB _ => if s.i.toNat + 2 > 0xFFF then some .outOfBounds else none
  | .storeRegs x => if s.i.toNat + x.val > 0xFFF then some .outOfBounds else none
  | .loadRegs x => if s.i.toNat + x.val > 0xFFF then some .outOfBounds else none
  | .drw _ _ n => if n > 0 ∧ s.i.toNat + n - 1 > 0xFFF then some .outOfBounds else none
  | .skp x => if (s.reg x).toNat > 15 then some .keyIndexOutOfRange else none
  | .sknp x => if (s.reg x).toNat > 15 then some .keyIndexOutOfRange else none
  | .cls | .jp _ | .seImm _ _ | .sneImm _ _ | .seReg _ _ | .ldImm _ _ | .addImm _ _ | .ldReg _ _ | .orReg _ _
  | .andReg _ _ | .xorReg _ _ | .addReg _ _ | .sub _ _ | .shr _ _ | .subn _ _ | .shl _ _ | .sneReg _ _ | .ldI _
  | .jpV0 _ | .rnd _ _ | .ldVxDt _ | .ldVxK _ | .ldDtVx _ | .ldStVx _ | .addI _ | .ldF _ => none

/-- The instruction the next step executes, if its fetch and its decode succeed (40_cycle.md R81, R83). -/
def nextInstr (s : State) : Option Instr :=
  match fetchWord s with
  | some w => decodeWord w
  | none => none

/-- How many bytes of memory from `I` upward an instruction reads or writes (43_index_memory.md R126). -/
def dataBytes (i : Instr) : Nat :=
  match i with
  | .drw _ _ n => n
  | .ldB _ => 3
  | .storeRegs x => x.val + 1
  | .loadRegs x => x.val + 1
  | .cls | .ret | .jp _ | .call _ | .seImm _ _ | .sneImm _ _ | .seReg _ _ | .ldImm _ _ | .addImm _ _ | .ldReg _ _
  | .orReg _ _ | .andReg _ _ | .xorReg _ _ | .addReg _ _ | .sub _ _ | .shr _ _ | .subn _ _ | .shl _ _ | .sneReg _ _
  | .ldI _ | .jpV0 _ | .rnd _ _ | .skp _ | .sknp _ | .ldVxDt _ | .ldVxK _ | .ldDtVx _ | .ldStVx _ | .addI _
  | .ldF _ => 0

/-- The last byte that the next step fetches, or that the range of its instruction names, is the one at 0xFFF
(90_conflicts.md C1). -/
def touchesLastByte (s : State) : Prop :=
  s.pc.toNat = 0xFFE ∨ ∃ i, nextInstr s = some i ∧ 0 < dataBytes i ∧ s.i.toNat + (dataBytes i - 1) = 0xFFF

/-- A step that does not fail (R165: a claim about a run takes "no step fails" as part of what it proves). -/
def SafeStep (s : State) : Prop := ∃ t, step s = .next t

/-- How many of the next `k` steps satisfy a test on the instruction they execute. -/
def countSteps (test : Instr → Bool) (k : Nat) (s : State) : Nat :=
  match k with
  | 0 => 0
  | k + 1 =>
    let here := match nextInstr s with
      | some i => (test i).toNat
      | none => 0
    match step s with
    | .next t => here + countSteps test k t
    | .fault _ => 0
    | .refused _ => 0

/-- The instruction is a call. -/
def isCall (i : Instr) : Bool := match i with | .call _ => true | _ => false

/-- The instruction is a return. -/
def isRet (i : Instr) : Bool := match i with | .ret => true | _ => false

/-! ## Invariants -/

/-- The range of `pc` in every state reached from reset, and of what 00EE can restore (10_state.md R16). -/
def PcInReach (s : State) : Prop :=
  s.pc.toNat ≤ 0x10FE ∧ ∀ k : Fin 16, k.val < s.sp.val → (s.entry k).toNat ≤ 0x1000

/-- The values a cell can hold in any state reached from reset (10_state.md R23). -/
def reachableCells : List Byte := [0, 14, 74, 134, 194, 254, 255]

/-- Every cell holds one of those values (R23). -/
def CellsInReach (s : State) : Prop := ∀ x y, s.cell x y ∈ reachableCells

/-- Two states that differ at most in the values of cells that are logically off in both (10_state.md R24, R25). -/
def SameButFade (s t : State) : Prop :=
  t = s.setDisp t.disp ∧ ∀ x y, s.cell x y = cellOn ↔ t.cell x y = cellOn

/-- Two answers alike up to fading: both go on to states that are, or both stop for the same reason. -/
def SameAnswerButFade (a b : Answer) : Prop :=
  match a, b with
  | .next s, .next t => SameButFade s t
  | .fault f, .fault g => f = g
  | .refused r, .refused q => r = q
  | _, _ => False

/-! ## Open outcomes -/

/-- The number `VF` ends as when it is destination and flag of one instruction, under an order of the two writes
(42_alu.md R114). -/
def finalVf (order : VfOrder) (result flag : Nat) : Nat :=
  match order with
  | .flagLast => flag
  | .resultLast => result

/-! ## A draw seen cell by cell -/

/-- The sprite of `Dxyn` has a 1 bit at the cell, the start in `s` and clipping at the edges taken into account
(44_display.md R131, R132 a). -/
def spriteBit (s : State) (x y : Reg) (n : Nat) (cx : Fin 64) (cy : Fin 32) : Prop :=
  startX s x ≤ cx.val ∧ cx.val ≤ startX s x + 7 ∧ startY s y ≤ cy.val ∧ cy.val < startY s y + n ∧
    (s.byte (effAddr s (cy.val - startY s y))).getLsbD (7 - (cx.val - startX s x)) = true

end Sys2Proof.Machine
end

