-- ==== Sys2Proof/Certificates/Slice0/Obligations.lean ====
section
/-! DEFINITION. The statements for the provers. In a statement about `exec`, `s.pc` is the advanced value `pc0 + 2` of
40_cycle.md R82; `Frame w s t` says that every piece of the state but those of `w` is unchanged, every byte of memory
among them. -/

open Sys2Proof Sys2Proof.Machine

/-! ## Encoding and decoding -/

/-- 30_encoding.md sections 1 to 3: every well-formed instruction, whatever its operands, is decoded from its word. -/
def Obligations.DecodeInvertsEncode : Prop :=
  ∀ i : Instr, WellFormed i = true → decodeWord (encode i) = some i

/-- 30_encoding.md sections 1 to 3: a word that decodes is the word of what it decodes to, and that is well-formed. -/
def Obligations.EncodeInvertsDecode : Prop :=
  ∀ (w : Word) (i : Instr), decodeWord w = some i → WellFormed i = true ∧ encode i = w

/-- 30_encoding.md R64: the decoder selects the unique row of R66 that the word matches; the rows are disjoint; a word
that matches no row is unknown. -/
def Obligations.DecoderFollowsOpcodeTable : Prop :=
  (∀ r ∈ opcodeTable, ∀ w : Word, r.accepts w → ∃ i, decodeWord w = some i ∧ rowOf i = r) ∧
    opcodeTable.Pairwise (fun r q => ∀ w : Word, ¬ (r.accepts w ∧ q.accepts w)) ∧
    ∀ w : Word, (∀ r ∈ opcodeTable, ¬ r.accepts w) → decodeWord w = none

/-- 30_encoding.md section 4, the table of R70, which rests on the spec's decision D18 (92_eei_decisions.md). -/
def Obligations.UnknownWordsByType : Prop :=
  ∀ w : Word, decodeWord w = none ↔
    (typeField w = 0x0 ∧ w ≠ 0x00E0 ∧ w ≠ 0x00EE) ∨
    (typeField w = 0x5 ∧ nField w ≠ 0) ∨
    (typeField w = 0x8 ∧ nField w ∈ ([0x8, 0x9, 0xA, 0xB, 0xC, 0xD, 0xF] : List (BitVec 4))) ∨
    (typeField w = 0x9 ∧ nField w ≠ 0) ∨
    (typeField w = 0xE ∧ nnField w ∉ ([0x9E, 0xA1] : List Byte)) ∨
    (typeField w = 0xF ∧
      nnField w ∉ ([0x07, 0x0A, 0x15, 0x18, 0x1E, 0x29, 0x33, 0x55, 0x65] : List Byte))

/-- 30_encoding.md section 3: one word of each family, written out bit by bit (a sanity statement). -/
def Obligations.HandWrittenWordsDecode : Prop :=
  decodeWord 0b0000000011101110#16 = some .ret ∧
  decodeWord 0b0010001100000000#16 = some (.call 0x300) ∧
  decodeWord 0b0110000000001010#16 = some (.ldImm 0 0x0A) ∧
  decodeWord 0b1000000000010100#16 = some (.addReg 0 1) ∧
  decodeWord 0b1111001001010101#16 = some (.storeRegs 2) ∧
  decodeWord 0b1101000000010101#16 = some (.drw 0 1 5) ∧
  decodeWord 0b1110001010011110#16 = some (.skp 2) ∧
  decodeWord 0b0101000100100001#16 = none

/-- 20_memory.md section 1 (byte order, read from the source's scenario): the byte at the lower address is the high
byte, for the decoder of bytes and for the fetch. -/
def Obligations.BytesAreHighByteFirst : Prop :=
  (∀ (i : Instr) (rest : List Byte), WellFormed i = true →
    decodeBytes (bytesOfWord (encode i) ++ rest) = .ok (i, rest)) ∧
  ∀ (s : State) (w : Word), fetchWord s = some w →
    w.toNat = 256 * (s.byte s.pc.toNat).toNat + (s.byte (s.pc.toNat + 1)).toNat

/-! ## The step -/

/-- 40_cycle.md section 1: when the two bytes at `pc` decode to an instruction, the step is `exec` of it, started with
`pc` advanced by 2 and nothing else changed. -/
def Obligations.StepRunsDecodedInstruction : Prop :=
  ∀ (s : State) (i : Instr), s.pc.toNat ≤ 0xFFE →
    decodeWord (wordOfBytes (s.byte s.pc.toNat) (s.byte (s.pc.toNat + 1))) = some i →
    step s = exec i (s.setPc (s.pc + 2))

/-- 40_cycle.md section 1 (the spec's inference that `pc` keeps `pc0`): a fetch past the Memory Image fails, whatever
else the state holds. -/
def Obligations.FetchPastMemoryFails : Prop :=
  ∀ s : State, 0xFFF ≤ s.pc.toNat → step s = .fault (.outOfBounds s.pc)

/-- 40_cycle.md section 1 (the spec's inference that `pc` stays `pc0 + 2`): an unknown word fails, with `pc` advanced. -/
def Obligations.UnknownWordFails : Prop :=
  ∀ s : State, s.pc.toNat ≤ 0xFFE →
    decodeWord (wordOfBytes (s.byte s.pc.toNat) (s.byte (s.pc.toNat + 1))) = none →
    step s = .fault (.unknownOpcode (s.pc + 2))

/-- 40_cycle.md section 2 and 45_keypad_timers.md section 1 (the spec's inference): a jump to itself and a key wait with
no key pressed are steps that change nothing at all. -/
def Obligations.IdleStepsChangeNothing : Prop :=
  (∀ (s : State) (nnn : Addr12), fetchWord s = some (0x1#4 ++ nnn) → nnn.toNat = s.pc.toNat → step s = .next s) ∧
  ∀ (s : State) (x : Reg), fetchWord s = some (0xF#4 ++ BitVec.ofFin (w := 4) x ++ 0x0A#8) →
    (∀ k, s.pressed k = false) → step s = .next s

/-- 60_exceptions.md section 1 (the table of failures, whose codes and checks before writes are the spec's decisions D9
and D10): every instruction completes with a next state unless the table gives it a failure, and then it fails with that
kind, `pc` standing at the advanced value. -/
def Obligations.CompletesUnlessTableFails : Prop :=
  ∀ (i : Instr) (s : State),
    (failureOf i s = none → ∃ t, exec i s = .next t) ∧
    ∀ r, failureOf i s = some r → ∃ f, exec i s = .fault f ∧ faultResult f = r ∧ faultPc f = s.pc

/-- 60_exceptions.md section 1 (the state after a failing step, the spec's decision D9): the caller gets the kind, and
at most `pc` has moved, to `pc0` after a failed fetch and to `pc0 + 2` after any other failure. -/
def Obligations.FailingStepMovesOnlyPc : Prop :=
  ∀ (b : Block) (f : Fault), b.phase = .ready → step b.core = .fault f →
    ∃ b', perform .step b = some (b', .result (faultResult f)) ∧ b'.phase = .failed (faultResult f) ∧
      b'.core.pc = (if fetchWord b.core = none then b.core.pc else b.core.pc + 2) ∧
      Frame (fun p => p = .pc) b.core b'.core

/-- 10_state.md section 13 (the access matrix, the spec's inference from the instruction rules): an instruction that
completes leaves every piece of the state alone that its row of the matrix does not mark. -/
def Obligations.InstructionsWriteOnlyMatrix : Prop :=
  ∀ (i : Instr) (s t : State), exec i s = .next t → Frame (writes i s) s t

/-- 90_conflicts.md C1 and 92_eei_decisions.md D1: what the other admissible memory size changes. With 4095 bytes a step
that fetches or accesses the byte at 0xFFF fails with OutOfBounds, every other step is as with 4096, the value the spec
takes (log entry 1); and a ROM of exactly 3584 bytes is rejected, every other treated alike. -/
def Obligations.MemorySizeMattersAtLastByte : Prop :=
  (∀ s : State, cycleIn .bytes4096 s = step s ∧
    (¬ touchesLastByte s → cycleIn .bytes4095 s = step s) ∧
    (touchesLastByte s →
      cycleIn .bytes4095 s = .fault (.outOfBounds (if s.pc.toNat = 0xFFE then s.pc else s.pc + 2)))) ∧
  ∀ (rom : List Byte) (s : State), loadRom rom s .bytes4095 = if rom.length = 3584 then none else loadRom rom s

/-! ## Host operations -/

/-- 10_state.md section 12, 70_reset_and_hazards.md section 1 and 20_memory.md section 5: what `Reset` leaves, from any
state and for every font table, and that a step taken then fails; with no table given it is the default `font`. The
default font (G1, log entry 2), the display (D5, log entry 7) and the keypad (D6, log entry 8) are the spec's own
choices; that the step fails so is the spec's inference (log entry 13). -/
def Obligations.ResetLeavesSpecValues : Prop :=
  ∀ (s : State) (table : Font),
    let t := resetOp s table
    (∀ r, t.reg r = 0) ∧ t.i = 0 ∧ t.pc = 0x200 ∧ t.sp.val = 0 ∧ t.dt = 0 ∧ t.st = 0 ∧
    (∀ j (h : j < 80), t.byte (0x050 + j) = table[j]) ∧
    (∀ a, a < 0x050 ∨ 0x0A0 ≤ a → t.byte a = 0) ∧
    (∀ x y, t.cell x y = 0) ∧ (∀ k, t.pressed k = false) ∧
    step t = .fault (.unknownOpcode 0x202) ∧
    ∀ j (h : j < 80), (resetOp s).byte (0x050 + j) = font[j]

/-- 70_reset_and_hazards.md section 2 (the 3584 is the spec's inference from the memory size of decision D1): a ROM that
fits is copied byte for byte and nothing else changes; a longer one is rejected and nothing is written. -/
def Obligations.LoadRomCopiesOrRejects : Prop :=
  ∀ (rom : List Byte) (s : State),
    (rom.length ≤ 3584 → ∃ t, loadRom rom s = some t ∧
      (∀ j (h : j < rom.length), t.byte (0x200 + j) = rom[j]) ∧
      Frame (fun p => ∃ j, j < rom.length ∧ p = .byte (0x200 + j)) s t) ∧
    (3584 < rom.length → loadRom rom s = none)

/-- 70_reset_and_hazards.md section 2: after the boot sequence, from any block and with every font table, the first word
fetched is the ROM's first two bytes. -/
def Obligations.BootFetchesRomStart : Prop :=
  ∀ (hi lo : Byte) (rest : List Byte) (b : Block) (table : Font), rest.length ≤ 3582 →
    ∃ b', runSchedule (bootSequence (hi :: lo :: rest)) b memSize table = some b' ∧ b'.phase = .ready ∧
      b'.core.pc = 0x200 ∧ fetchWord b'.core = some (hi ++ lo)

/-- 45_keypad_timers.md R150: all 16 bits at once, and nothing else. -/
def Obligations.LoadKeysReplacesSnapshot : Prop :=
  ∀ (k : Vector Bool 16) (s : State),
    (∀ r : Reg, (loadKeys k s).pressed r = k[r.val]) ∧ Frame (fun p => ∃ r, p = .key r) s (loadKeys k s)

/-- 45_keypad_timers.md R152: each timer goes down by one and stays at 0, and nothing else changes. -/
def Obligations.TickCountsDown : Prop :=
  ∀ s : State, (tick s).dt.toNat = s.dt.toNat - 1 ∧ (tick s).st.toNat = s.st.toNat - 1 ∧
    Frame (fun p => p = .dt ∨ p = .st) s (tick s)

/-- 45_keypad_timers.md section 3 (law (b) of the timers, the spec's inference): what Fx07 reads `k` ticks after Fx15
wrote, and the sound timer likewise after Fx18. -/
def Obligations.TimerReadsAfterTicks : Prop :=
  ∀ (x y : Reg) (k : Nat) (s : State),
    (∃ t u, exec (.ldDtVx x) s = .next t ∧ exec (.ldVxDt y) (tick^[k] t) = .next u ∧
      (u.reg y).toNat = (s.reg x).toNat - k) ∧
    ∃ t, exec (.ldStVx x) s = .next t ∧ (tick^[k] t).st.toNat = (s.reg x).toNat - k

/-- 44_display.md section 3: a cell strictly between 60 and 255 goes down by 60, any other stays, and nothing else
changes. That 254 goes down too is the spec's resolution of conflict C3 against a remark of the source (log entry 23). -/
def Obligations.DecayFadesCells : Prop :=
  ∀ s : State,
    (∀ x y, ((decay s).cell x y).toNat =
      if 60 < (s.cell x y).toNat ∧ (s.cell x y).toNat < 255 then (s.cell x y).toNat - 60
      else (s.cell x y).toNat) ∧
    Frame (fun p => ∃ x y, p = .cell x y) s (decay s)

/-- 44_display.md section 3 (laws (b) and (c) of Decay, the spec's inference): a just-cleared cell comes to rest at 14
after four decays, and a display at rest is left as it is. -/
def Obligations.DecayComesToRest : Prop :=
  (∀ (s : State) (x : Fin 64) (y : Fin 32), s.cell x y = 254 →
    ((decay s).cell x y = 194 ∧ (decay^[2] s).cell x y = 134 ∧ (decay^[3] s).cell x y = 74 ∧
      ∀ k, (decay^[k + 4] s).cell x y = 14)) ∧
  ∀ s : State, (∀ x y, s.cell x y ∈ ([0, 14, 255] : List Byte)) → decay s = s

/-- 60_exceptions.md section 3 and 10_state.md section 12 (the spec's decisions D8 and D27): before the first reset only
`Reset` is open; after a failure or a rejected ROM no schedule without a `Reset` contains a step or ends the stop. -/
def Obligations.StopLastsUntilReset : Prop :=
  (∀ (op : HostOp) (b : Block), b.phase = .constructed → (op = .reset ↔ (perform op b).isSome)) ∧
  ∀ (ops : List HostOp) (b b' : Block), (b.phase = .aborted ∨ ∃ r, b.phase = .failed r) → HostOp.reset ∉ ops →
    runSchedule ops b = some b' → b'.phase = b.phase ∧ HostOp.step ∉ ops

/-! ## The call stack and control transfer -/

/-- 10_state.md R20 and R21: the two stack primitives. -/
def Obligations.PushAndPopFollowDepth : Prop :=
  (∀ (a : Word) (s : State), (s.sp.val = 16 → push a s = none) ∧
    (s.sp.val < 16 → ∃ t, push a s = some t ∧ t.sp.val = s.sp.val + 1 ∧
      (∀ k : Fin 16, k.val = s.sp.val → t.entry k = a) ∧
      Frame (fun p => p = .sp ∨ ∃ k : Fin 16, k.val = s.sp.val ∧ p = .entry k) s t)) ∧
  ∀ s : State, (s.sp.val = 0 → pop s = none) ∧
    (0 < s.sp.val → ∃ (k : Fin 16) (t : State), k.val + 1 = s.sp.val ∧ pop s = some (s.entry k, t) ∧
      t.sp.val = k.val ∧ Frame (fun p => p = .sp) s t)

/-- 41_flow.md R90: 00EE restores the top entry, or fails on an empty stack. -/
def Obligations.RetPopsIntoPc : Prop :=
  decodeWord 0x00EE#16 = some .ret ∧
  ∀ s : State,
    (0 < s.sp.val → ∃ (k : Fin 16) (t : State), k.val + 1 = s.sp.val ∧ exec .ret s = .next t ∧
      t.pc = s.entry k ∧ t.sp.val = k.val ∧ Frame (fun p => p = .pc ∨ p = .sp) s t) ∧
    (s.sp.val = 0 → exec .ret s = .fault (.stackUnderflow s.pc))

/-- 41_flow.md R91: 1nnn. -/
def Obligations.JumpSetsPc : Prop :=
  ∀ (nnn : Addr12) (s : State), decodeWord (0x1#4 ++ nnn) = some (.jp nnn) ∧
    ∃ t, exec (.jp nnn) s = .next t ∧ t.pc.toNat = nnn.toNat ∧ Frame (fun p => p = .pc) s t

/-- 41_flow.md, the call instruction (that a failing call leaves `pc` advanced is the spec's inference): 2nnn pushes the
address of the next instruction, or fails on a full stack. -/
def Obligations.CallPushesReturnAddress : Prop :=
  ∀ (nnn : Addr12) (s : State), decodeWord (0x2#4 ++ nnn) = some (.call nnn) ∧
    (s.sp.val < 16 → ∃ t, exec (.call nnn) s = .next t ∧ t.pc.toNat = nnn.toNat ∧ t.sp.val = s.sp.val + 1 ∧
      (∀ k : Fin 16, k.val = s.sp.val → t.entry k = s.pc) ∧ Frame (writes (.call nnn) s) s t) ∧
    (s.sp.val = 16 → exec (.call nnn) s = .fault (.stackOverflow s.pc))

/-- 41_flow.md section on call and return: a return from any state that has the stack a call left goes back to the
instruction after the call, with the live entries as they were. -/
def Obligations.CallThenReturnRestores : Prop :=
  ∀ (nnn : Addr12) (s t u : State), exec (.call nnn) s = .next t → u.sp = t.sp → u.stack = t.stack →
    ∃ v, exec .ret u = .next v ∧ v.pc = s.pc ∧ v.sp = s.sp ∧
      ∀ k : Fin 16, k.val < s.sp.val → v.entry k = s.entry k

/-- 41_flow.md, law (f) of control transfer (the spec's inference): over any run of successful steps, from any state,
the depth changes by the number of calls less the number of returns executed. -/
def Obligations.DepthCountsCallsAndReturns : Prop :=
  ∀ (k : Nat) (s t : State), Sys2Proof.core.run k s = .next t →
    t.sp.val + countSteps isRet k s = s.sp.val + countSteps isCall k s

/-- 41_flow.md R93 and R94: 3xnn and 4xnn. -/
def Obligations.ImmediateSkips : Prop :=
  ∀ (x : Reg) (nn : Byte) (s : State),
    decodeWord (0x3#4 ++ BitVec.ofFin (w := 4) x ++ nn) = some (.seImm x nn) ∧
    decodeWord (0x4#4 ++ BitVec.ofFin (w := 4) x ++ nn) = some (.sneImm x nn) ∧
    (∃ t, exec (.seImm x nn) s = .next t ∧ t.pc = (if s.reg x = nn then s.pc + 2 else s.pc) ∧
      Frame (fun p => p = .pc) s t) ∧
    ∃ t, exec (.sneImm x nn) s = .next t ∧ t.pc = (if s.reg x ≠ nn then s.pc + 2 else s.pc) ∧
      Frame (fun p => p = .pc) s t

/-- 41_flow.md R95 and R96: 5xy0 and 9xy0. -/
def Obligations.RegisterSkips : Prop :=
  ∀ (x y : Reg) (s : State),
    decodeWord (0x5#4 ++ BitVec.ofFin (w := 4) x ++ BitVec.ofFin (w := 4) y ++ 0x0#4) = some (.seReg x y) ∧
    decodeWord (0x9#4 ++ BitVec.ofFin (w := 4) x ++ BitVec.ofFin (w := 4) y ++ 0x0#4) = some (.sneReg x y) ∧
    (∃ t, exec (.seReg x y) s = .next t ∧ t.pc = (if s.reg x = s.reg y then s.pc + 2 else s.pc) ∧
      Frame (fun p => p = .pc) s t) ∧
    ∃ t, exec (.sneReg x y) s = .next t ∧ t.pc = (if s.reg x ≠ s.reg y then s.pc + 2 else s.pc) ∧
      Frame (fun p => p = .pc) s t

/-- 41_flow.md R97: Bnnn, not reduced to 12 bits. -/
def Obligations.JumpWithOffset : Prop :=
  ∀ (nnn : Addr12) (s : State), decodeWord (0xB#4 ++ nnn) = some (.jpV0 nnn) ∧
    ∃ t, exec (.jpV0 nnn) s = .next t ∧ t.pc.toNat = (nnn.toNat + (s.reg 0).toNat) % 65536 ∧
      t.pc.toNat ≤ 0x10FE ∧ Frame (fun p => p = .pc) s t

/-! ## Arithmetic and logic -/

/-- 42_alu.md, the instructions 6xnn and 7xnn, `VF` untouched unless it is `Vx`; for 7xnn that is the spec's decision
D13 (log entry 16). -/
def Obligations.ImmediateLoadAndAdd : Prop :=
  ∀ (x : Reg) (nn : Byte) (s : State),
    decodeWord (0x6#4 ++ BitVec.ofFin (w := 4) x ++ nn) = some (.ldImm x nn) ∧
    decodeWord (0x7#4 ++ BitVec.ofFin (w := 4) x ++ nn) = some (.addImm x nn) ∧
    (∃ t, exec (.ldImm x nn) s = .next t ∧ t.reg x = nn ∧ Frame (fun p => p = .reg x) s t) ∧
    ∃ t, exec (.addImm x nn) s = .next t ∧ (t.reg x).toNat = ((s.reg x).toNat + nn.toNat) % 256 ∧
      Frame (fun p => p = .reg x) s t

/-- 42_alu.md, the instructions 8xy0 to 8xy3 (their numbering is G3, log entry 21; `VF` unchanged is the spec's decision
D13, log entry 16). -/
def Obligations.AssignAndLogic : Prop :=
  ∀ (x y : Reg) (s : State),
    (decodeWord (0x8#4 ++ BitVec.ofFin (w := 4) x ++ BitVec.ofFin (w := 4) y ++ 0x0#4) = some (.ldReg x y) ∧
      decodeWord (0x8#4 ++ BitVec.ofFin (w := 4) x ++ BitVec.ofFin (w := 4) y ++ 0x1#4) = some (.orReg x y) ∧
      decodeWord (0x8#4 ++ BitVec.ofFin (w := 4) x ++ BitVec.ofFin (w := 4) y ++ 0x2#4) = some (.andReg x y) ∧
      decodeWord (0x8#4 ++ BitVec.ofFin (w := 4) x ++ BitVec.ofFin (w := 4) y ++ 0x3#4) = some (.xorReg x y)) ∧
    (∃ t, exec (.ldReg x y) s = .next t ∧ t.reg x = s.reg y ∧ Frame (fun p => p = .reg x) s t) ∧
    (∃ t, exec (.orReg x y) s = .next t ∧
      (∀ b, (t.reg x).getLsbD b = ((s.reg x).getLsbD b || (s.reg y).getLsbD b)) ∧ Frame (fun p => p = .reg x) s t) ∧
    (∃ t, exec (.andReg x y) s = .next t ∧
      (∀ b, (t.reg x).getLsbD b = ((s.reg x).getLsbD b && (s.reg y).getLsbD b)) ∧ Frame (fun p => p = .reg x) s t) ∧
    ∃ t, exec (.xorReg x y) s = .next t ∧
      (∀ b, (t.reg x).getLsbD b = ((s.reg x).getLsbD b ^^ (s.reg y).getLsbD b)) ∧ Frame (fun p => p = .reg x) s t

/-- 42_alu.md R106: 8xy4 with a destination that is not `VF` (`x = 0xF` is `FlagIntoItsOwnDestination`). -/
def Obligations.AddSetsCarry : Prop :=
  ∀ (x y : Reg) (s : State),
    decodeWord (0x8#4 ++ BitVec.ofFin (w := 4) x ++ BitVec.ofFin (w := 4) y ++ 0x4#4) = some (.addReg x y) ∧
    (x ≠ 0xF → ∃ t, exec (.addReg x y) s = .next t ∧
      (t.reg x).toNat = ((s.reg x).toNat + (s.reg y).toNat) % 256 ∧
      t.reg 0xF = (if (s.reg x).toNat + (s.reg y).toNat > 255 then 1 else 0) ∧
      Frame (fun p => p = .reg x ∨ p = .reg 0xF) s t)

/-- 42_alu.md R107 and R109: 8xy5 and 8xy7 with a destination that is not `VF`; the comparison is strict. -/
def Obligations.SubtractionsSetStrictFlag : Prop :=
  ∀ (x y : Reg) (s : State),
    decodeWord (0x8#4 ++ BitVec.ofFin (w := 4) x ++ BitVec.ofFin (w := 4) y ++ 0x5#4) = some (.sub x y) ∧
    decodeWord (0x8#4 ++ BitVec.ofFin (w := 4) x ++ BitVec.ofFin (w := 4) y ++ 0x7#4) = some (.subn x y) ∧
    (x ≠ 0xF → ∃ t, exec (.sub x y) s = .next t ∧
      (t.reg x).toNat = ((s.reg x).toNat + 256 - (s.reg y).toNat) % 256 ∧
      t.reg 0xF = (if (s.reg x).toNat > (s.reg y).toNat then 1 else 0) ∧
      Frame (fun p => p = .reg x ∨ p = .reg 0xF) s t) ∧
    (x ≠ 0xF → ∃ t, exec (.subn x y) s = .next t ∧
      (t.reg x).toNat = ((s.reg y).toNat + 256 - (s.reg x).toNat) % 256 ∧
      t.reg 0xF = (if (s.reg y).toNat > (s.reg x).toNat then 1 else 0) ∧
      Frame (fun p => p = .reg x ∨ p = .reg 0xF) s t)

/-- 42_alu.md R108 and R110: 8xy6 and 8xyE with a destination that is not `VF`, whatever the unused field `y` holds. -/
def Obligations.ShiftsSetEvictedBit : Prop :=
  ∀ (x y : Reg) (s : State),
    decodeWord (0x8#4 ++ BitVec.ofFin (w := 4) x ++ BitVec.ofFin (w := 4) y ++ 0x6#4) = some (.shr x y) ∧
    decodeWord (0x8#4 ++ BitVec.ofFin (w := 4) x ++ BitVec.ofFin (w := 4) y ++ 0xE#4) = some (.shl x y) ∧
    (x ≠ 0xF → ∃ t, exec (.shr x y) s = .next t ∧ (t.reg x).toNat = (s.reg x).toNat / 2 ∧
      (t.reg 0xF).toNat = (s.reg x).toNat % 2 ∧ Frame (fun p => p = .reg x ∨ p = .reg 0xF) s t) ∧
    (x ≠ 0xF → ∃ t, exec (.shl x y) s = .next t ∧ (t.reg x).toNat = 2 * (s.reg x).toNat % 256 ∧
      (t.reg 0xF).toNat = (s.reg x).toNat / 128 ∧ Frame (fun p => p = .reg x ∨ p = .reg 0xF) s t)

/-- 42_alu.md, the paragraph on `VF` as destination (the spec's decision D12, log entry 4): with `x = 0xF` the five
flag-writing forms complete, `VF` ends as flag or as result by one order of the two writes, and nothing else changes.
Which order is open. -/
def Obligations.FlagIntoItsOwnDestination : Prop :=
  ∃ order : VfOrder, ∀ (y : Reg) (s : State),
    (∃ t, exec (.addReg 0xF y) s = .next t ∧ (t.reg 0xF).toNat =
        finalVf order (((s.reg 0xF).toNat + (s.reg y).toNat) % 256)
          (if (s.reg 0xF).toNat + (s.reg y).toNat > 255 then 1 else 0) ∧ Frame (fun p => p = .reg 0xF) s t) ∧
    (∃ t, exec (.sub 0xF y) s = .next t ∧ (t.reg 0xF).toNat =
        finalVf order (((s.reg 0xF).toNat + 256 - (s.reg y).toNat) % 256)
          (if (s.reg 0xF).toNat > (s.reg y).toNat then 1 else 0) ∧ Frame (fun p => p = .reg 0xF) s t) ∧
    (∃ t, exec (.shr 0xF y) s = .next t ∧ (t.reg 0xF).toNat =
        finalVf order ((s.reg 0xF).toNat / 2) ((s.reg 0xF).toNat % 2) ∧ Frame (fun p => p = .reg 0xF) s t) ∧
    (∃ t, exec (.subn 0xF y) s = .next t ∧ (t.reg 0xF).toNat =
        finalVf order (((s.reg y).toNat + 256 - (s.reg 0xF).toNat) % 256)
          (if (s.reg y).toNat > (s.reg 0xF).toNat then 1 else 0) ∧ Frame (fun p => p = .reg 0xF) s t) ∧
    ∃ t, exec (.shl 0xF y) s = .next t ∧ (t.reg 0xF).toNat =
        finalVf order (2 * (s.reg 0xF).toNat % 256) ((s.reg 0xF).toNat / 128) ∧ Frame (fun p => p = .reg 0xF) s t

/-- 10_state.md section 2: a flag written as a side effect is 0 or 1; for the ALU forms with a destination that is not
`VF`, for a draw always. -/
def Obligations.FlagIsZeroOrOne : Prop :=
  ∀ (i : Instr) (s t : State),
    (∃ x y, x ≠ 0xF ∧ i ∈ ([.addReg x y, .sub x y, .shr x y, .subn x y, .shl x y] : List Instr)) ∨
      (∃ x y n, i = .drw x y n) →
    exec i s = .next t → t.reg 0xF = 0 ∨ t.reg 0xF = 1

/-- 42_alu.md, the random instruction and the random input: the byte drawn is the free value `Config.draw8` of the
counter `draws` (the model's, log entry 3); it is masked by `nn`, and the next draw is another free value. -/
def Obligations.RandomIsMasked : Prop :=
  ∀ (x : Reg) (nn : Byte) (s : State),
    decodeWord (0xC#4 ++ BitVec.ofFin (w := 4) x ++ nn) = some (.rnd x nn) ∧
    ∃ t, exec (.rnd x nn) s = .next t ∧ t.reg x = Config.draw8 s.draws &&& nn ∧ t.draws = s.draws + 1 ∧
      (∀ b, nn.getLsbD b = false → (t.reg x).getLsbD b = false) ∧
      Frame (fun p => p = .reg x ∨ p = .draws) s t

/-! ## Index register and memory -/

/-- 43_index_memory.md R120: Annn. -/
def Obligations.LoadIndex : Prop :=
  ∀ (nnn : Addr12) (s : State), decodeWord (0xA#4 ++ nnn) = some (.ldI nnn) ∧
    ∃ t, exec (.ldI nnn) s = .next t ∧ t.i.toNat = nnn.toNat ∧ Frame (fun p => p = .index) s t

/-- 43_index_memory.md, the instructions Fx1E and Fx29 (the 16-bit wrap and the missing mask are the spec's decisions D25
and D15, log entry 18; that Fx1E leaves `VF` alone is the spec's decision D13, log entry 16). -/
def Obligations.IndexArithmetic : Prop :=
  ∀ (x : Reg) (s : State),
    decodeWord (0xF#4 ++ BitVec.ofFin (w := 4) x ++ 0x1E#8) = some (.addI x) ∧
    decodeWord (0xF#4 ++ BitVec.ofFin (w := 4) x ++ 0x29#8) = some (.ldF x) ∧
    (∃ t, exec (.addI x) s = .next t ∧ t.i.toNat = (s.i.toNat + (s.reg x).toNat) % 65536 ∧
      Frame (fun p => p = .index) s t) ∧
    ∃ t, exec (.ldF x) s = .next t ∧ t.i.toNat = 0x050 + 5 * (s.reg x).toNat ∧ Frame (fun p => p = .index) s t

/-- 43_index_memory.md, the instruction Fx33: it stores the three digits from `I` upward, or fails. That a failing one
stores no byte is the spec's decision D9 (log entry 11), the last legal address its resolution C1 (log entry 1). -/
def Obligations.BcdStoresDigits : Prop :=
  ∀ (x : Reg) (s : State),
    decodeWord (0xF#4 ++ BitVec.ofFin (w := 4) x ++ 0x33#8) = some (.ldB x) ∧
    (s.i.toNat + 2 ≤ 0xFFF → ∃ t, exec (.ldB x) s = .next t ∧
      (t.byte (effAddr s 0)).toNat = (s.reg x).toNat / 100 ∧
      (t.byte (effAddr s 1)).toNat = (s.reg x).toNat / 10 % 10 ∧
      (t.byte (effAddr s 2)).toNat = (s.reg x).toNat % 10 ∧
      Frame (fun p => ∃ k, k < 3 ∧ p = .byte (effAddr s k)) s t) ∧
    (0xFFF < s.i.toNat + 2 → exec (.ldB x) s = .fault (.outOfBounds s.pc))

/-- 43_index_memory.md, the instruction Fx55: it stores `V0..Vx` from `I` upward, `I` unchanged, or fails. That a
failing one stores no byte is the spec's decision D9 (log entry 11), the last legal address its resolution C1 (log
entry 1). -/
def Obligations.StoreRegistersUpToX : Prop :=
  ∀ (x : Reg) (s : State),
    decodeWord (0xF#4 ++ BitVec.ofFin (w := 4) x ++ 0x55#8) = some (.storeRegs x) ∧
    (s.i.toNat + x.val ≤ 0xFFF → ∃ t, exec (.storeRegs x) s = .next t ∧
      (∀ r : Reg, r ≤ x → t.byte (effAddr s r.val) = s.reg r) ∧
      Frame (fun p => ∃ k, k ≤ x.val ∧ p = .byte (effAddr s k)) s t) ∧
    (0xFFF < s.i.toNat + x.val → exec (.storeRegs x) s = .fault (.outOfBounds s.pc))

/-- 43_index_memory.md, the instruction Fx65: it loads `V0..Vx` from `I` upward, `I` and memory unchanged, or fails; and
loading what Fx55 stored, into any registers, restores them. That a failing one loads no register is the spec's decision
D9 (log entry 11), the last legal address its resolution C1 (log entry 1). -/
def Obligations.LoadRegistersUpToX : Prop :=
  ∀ (x : Reg) (s : State),
    decodeWord (0xF#4 ++ BitVec.ofFin (w := 4) x ++ 0x65#8) = some (.loadRegs x) ∧
    (s.i.toNat + x.val ≤ 0xFFF → ∃ t, exec (.loadRegs x) s = .next t ∧
      (∀ r : Reg, r ≤ x → t.reg r = s.byte (effAddr s r.val)) ∧
      Frame (fun p => ∃ r : Reg, r ≤ x ∧ p = .reg r) s t) ∧
    (0xFFF < s.i.toNat + x.val → exec (.loadRegs x) s = .fault (.outOfBounds s.pc)) ∧
    (∀ t u : State, exec (.storeRegs x) s = .next t → u.mem = t.mem → u.i = t.i →
      ∃ v, exec (.loadRegs x) u = .next v ∧ (∀ r : Reg, r ≤ x → v.reg r = s.reg r) ∧ v.i = s.i)

/-- 20_memory.md section 9 (the spec's decision D23): two registers stored at consecutive addresses are the word a fetch
from there reads next. -/
def Obligations.StoredWordIsFetched : Prop :=
  ∀ (x r q : Reg) (s t : State), exec (.storeRegs x) s = .next t → q.val = r.val + 1 → q ≤ x →
    t.pc.toNat = effAddr s r.val → fetchWord t = some (s.reg r ++ s.reg q)

/-- 20_memory.md sections 2 and 5, in the model's representation (log entry 22): two canonical memories with the same
bytes are the same data. -/
def Obligations.CanonicalMemoryUnique : Prop :=
  ∀ m m' : List Host.Cell, Memory.wf m → Memory.wf m' → (∀ a, Memory.get m a = Memory.get m' a) → m = m'

/-! ## Display -/

/-- 44_display.md R130: 00E0 turns fully-on cells to just cleared and leaves every other value; twice is once. -/
def Obligations.ClearMarksOnCells : Prop :=
  decodeWord 0x00E0#16 = some .cls ∧
  ∀ s : State, ∃ t, exec .cls s = .next t ∧
    (∀ x y, t.cell x y = if s.cell x y = 255 then 254 else s.cell x y) ∧
    (∀ x y, t.cell x y ≠ 255) ∧ Frame (fun p => ∃ x y, p = .cell x y) s t ∧ exec .cls t = .next t

/-- 44_display.md sections 1 and 2 (which event sets `VF` is resolved in C2, log entry 6; the range check and the old
`VF` as a coordinate are the spec's decisions D16 and D17): a draw, cell by cell. -/
def Obligations.DrawTogglesSpriteCells : Prop :=
  ∀ (x y : Reg) (n : Nat) (s : State),
    (n ≤ 15 → decodeWord (0xD#4 ++ BitVec.ofFin (w := 4) x ++ BitVec.ofFin (w := 4) y ++ BitVec.ofNat 4 n) =
      some (.drw x y n)) ∧
    (n = 0 ∨ s.i.toNat + n - 1 ≤ 0xFFF → ∃ t, exec (.drw x y n) s = .next t ∧
      (∀ cx cy, (spriteBit s x y n cx cy → t.cell cx cy = if s.cell cx cy = 255 then 254 else 255) ∧
        (¬ spriteBit s x y n cx cy → t.cell cx cy = s.cell cx cy)) ∧
      ((∃ cx cy, spriteBit s x y n cx cy ∧ s.cell cx cy = 255) → t.reg 0xF = 1) ∧
      ((¬ ∃ cx cy, spriteBit s x y n cx cy ∧ s.cell cx cy = 255) → t.reg 0xF = 0) ∧
      Frame (fun p => p = .reg 0xF ∨ ∃ cx cy, p = .cell cx cy) s t)

/-- 44_display.md section 1 (the spec's decision D16): a draw whose rows do not all lie in memory fails, clipped rows
included; a draw of no rows completes wherever `I` points and only resets `VF`. -/
def Obligations.DrawChecksItsRows : Prop :=
  ∀ (x y : Reg) (n : Nat) (s : State),
    (0 < n → 0xFFF < s.i.toNat + n - 1 → exec (.drw x y n) s = .fault (.outOfBounds s.pc)) ∧
    ∃ t, exec (.drw x y 0) s = .next t ∧ t.reg 0xF = 0 ∧ Frame (fun p => p = .reg 0xF) s t

/-! ## Keypad and timers -/

/-- 45_keypad_timers.md section 1: Ex9E and ExA1 on a key number of 16 keys. -/
def Obligations.KeySkips : Prop :=
  ∀ (x k : Reg) (s : State),
    decodeWord (0xE#4 ++ BitVec.ofFin (w := 4) x ++ 0x9E#8) = some (.skp x) ∧
    decodeWord (0xE#4 ++ BitVec.ofFin (w := 4) x ++ 0xA1#8) = some (.sknp x) ∧
    ((s.reg x).toNat = k.val →
      (∃ t, exec (.skp x) s = .next t ∧ t.pc = (if s.pressed k = true then s.pc + 2 else s.pc) ∧
        Frame (fun p => p = .pc) s t) ∧
      ∃ t, exec (.sknp x) s = .next t ∧ t.pc = (if s.pressed k = true then s.pc else s.pc + 2) ∧
        Frame (fun p => p = .pc) s t)

/-- 45_keypad_timers.md section 3 (the spec's decision D14, log entry 5): a key number above 15 is the model-level
fault. -/
def Obligations.KeyNumberAbove15Faults : Prop :=
  ∀ (x : Reg) (s : State), 15 < (s.reg x).toNat →
    exec (.skp x) s = .fault (.keyIndexOutOfRange s.pc) ∧ exec (.sknp x) s = .fault (.keyIndexOutOfRange s.pc)

/-- 45_keypad_timers.md R142: Fx0A takes the lowest pressed key; with none pressed it rewinds `pc` and succeeds. -/
def Obligations.WaitTakesLowestKey : Prop :=
  ∀ (x : Reg) (s : State),
    decodeWord (0xF#4 ++ BitVec.ofFin (w := 4) x ++ 0x0A#8) = some (.ldVxK x) ∧
    (∀ k : Reg, s.pressed k = true → (∀ j : Reg, j < k → s.pressed j = false) →
      ∃ t, exec (.ldVxK x) s = .next t ∧ (t.reg x).toNat = k.val ∧ Frame (fun p => p = .reg x) s t) ∧
    ((∀ k, s.pressed k = false) →
      ∃ t, exec (.ldVxK x) s = .next t ∧ t.pc = s.pc - 2 ∧ Frame (fun p => p = .pc) s t)

/-- 45_keypad_timers.md section 2 (which opcode does which is G4, log entry 21): Fx07, Fx15, Fx18. -/
def Obligations.TimerAccess : Prop :=
  ∀ (x : Reg) (s : State),
    (decodeWord (0xF#4 ++ BitVec.ofFin (w := 4) x ++ 0x07#8) = some (.ldVxDt x) ∧
      decodeWord (0xF#4 ++ BitVec.ofFin (w := 4) x ++ 0x15#8) = some (.ldDtVx x) ∧
      decodeWord (0xF#4 ++ BitVec.ofFin (w := 4) x ++ 0x18#8) = some (.ldStVx x)) ∧
    (∃ t, exec (.ldVxDt x) s = .next t ∧ t.reg x = s.dt ∧ Frame (fun p => p = .reg x) s t) ∧
    (∃ t, exec (.ldDtVx x) s = .next t ∧ t.dt = s.reg x ∧ Frame (fun p => p = .dt) s t) ∧
    ∃ t, exec (.ldStVx x) s = .next t ∧ t.st = s.reg x ∧ Frame (fun p => p = .st) s t

/-! ## Invariants and whole-machine rules -/

/-- The state after reset meets every invariant below, with every font table (10_state.md sections 4, 6 and 12). That every cell is 0 after
reset is the spec's decision D5 (log entry 7), the canonical form of memory the model's representation (log entry 22). -/
def Obligations.ResetMeetsInvariants : Prop :=
  (Memory.wf State.reset.mem ∧ PcInReach State.reset ∧ CellsInReach State.reset) ∧
    ∀ (s : State) (table : Font), Memory.wf (resetOp s table).mem ∧ PcInReach (resetOp s table) ∧
      CellsInReach (resetOp s table)

/-- 20_memory.md section 4, in the model's representation (log entry 22): a step keeps memory canonical, so no byte
outside the Memory Image is ever written. -/
def Obligations.StepKeepsMemoryCanonical : Prop :=
  ∀ s t : State, Memory.wf s.mem → step s = .next t → Memory.wf t.mem

/-- The same for every move of the host, a reset with any font table among them (40_cycle.md section 2). -/
def Obligations.HostMovesKeepMemoryCanonical : Prop :=
  ∀ (op : HostOp) (b b' : Block) (r : Reply) (table : Font), Memory.wf b.core.mem →
    perform op b memSize table = some (b', r) →
    Memory.wf b'.core.mem

/-- 10_state.md section 4 (the spec's inference): `pc` stays at or below 0x10FE, and every live stack entry at or below
0x1000. -/
def Obligations.StepKeepsPcInReach : Prop :=
  ∀ s t : State, PcInReach s → step s = .next t → PcInReach t

/-- 10_state.md section 6 (the spec's inference; conflict C4): no step, and no other move of the host, gives a cell a
value outside 0, 14, 74, 134, 194, 254, 255. -/
def Obligations.CellsStayInReach : Prop :=
  (∀ s t : State, CellsInReach s → step s = .next t → CellsInReach t) ∧
  ∀ (op : HostOp) (b b' : Block) (r : Reply), CellsInReach b.core → perform op b = some (b', r) →
    CellsInReach b'.core

/-- 10_state.md section 6 (the spec's inference): the fade values are invisible to a program. Steps of two states that
differ in them alone answer alike, and a decay makes such a difference and no other. -/
def Obligations.FadingIsInvisible : Prop :=
  (∀ s t : State, SameButFade s t → SameAnswerButFade (step s) (step t)) ∧ ∀ s : State, SameButFade s (decay s)
end

