-- ==== Sys2Proof/Laws/Memory.lean ====
section
/-! SUPPORT. The laws of memory (20_memory.md R43): a read after a write, and the canonical form kept. -/

namespace Sys2Proof.Machine

/-- The value of `MEM_SIZE` the spec takes, in bytes. -/
@[simp] theorem bytesOf_memSize : bytesOf memSize = 4096 := rfl

theorem Memory.get_insert (m : List Host.Cell) (a c : Nat) (v : Byte) (h : ∀ e ∈ m, e.1 ≠ a) :
    Memory.get (Memory.insert m a v) c = if c = a then v else Memory.get m c := by
  induction m with
  | nil => simp [Memory.insert, Memory.get]
  | cons e rest ih =>
    obtain ⟨b, w⟩ := e
    have hb : b ≠ a := h (b, w) (by simp)
    have hr : ∀ e ∈ rest, e.1 ≠ a := fun e he => h e (by simp [he])
    unfold Memory.insert
    split
    · simp [Memory.get]
    · simp only [Memory.get, ih hr]
      by_cases hc : c = b
      · subst hc; simp [hb]
      · simp [hc]

theorem Memory.get_erase (m : List Host.Cell) (a c : Nat) :
    Memory.get (Memory.erase m a) c = if c = a then resetByte a else Memory.get m c := by
  induction m with
  | nil => by_cases h : c = a <;> simp [Memory.erase, Memory.get, h]
  | cons e rest ih =>
    obtain ⟨b, w⟩ := e
    unfold Memory.erase at ih ⊢
    by_cases hb : b = a
    · subst hb
      rw [List.filter_cons_of_neg (by simp), ih]
      by_cases hc : c = b <;> simp [Memory.get, hc]
    · rw [List.filter_cons_of_pos (by simpa using hb)]
      simp only [Memory.get, ih]
      by_cases hc : c = b
      · subst hc; simp [hb]
      · simp [hc]

theorem Memory.mem_erase {m : List Host.Cell} {a : Nat} {e : Host.Cell} :
    e ∈ Memory.erase m a ↔ e ∈ m ∧ e.1 ≠ a := by
  simp [Memory.erase]

/-- A read after a write: the byte written at its address, what was there at any other. -/
theorem Memory.get_set (m : List Host.Cell) (a c : Nat) (v : Byte) :
    Memory.get (Memory.set m a v) c = if c = a then v else Memory.get m c := by
  unfold Memory.set
  split
  · rename_i h
    rw [Memory.get_erase, h]
  · rw [Memory.get_insert _ _ _ _ (fun e he => (Memory.mem_erase.1 he).2), Memory.get_erase]
    by_cases hc : c = a <;> simp [hc]

/-- A read after a block of writes. -/
theorem Memory.get_setBytes (m : List Host.Cell) (a c : Nat) (bs : List Byte) :
    Memory.get (Memory.setBytes m a bs) c =
      if h : a ≤ c ∧ c - a < bs.length then bs[c - a] else Memory.get m c := by
  induction bs generalizing m a with
  | nil => simp [Memory.setBytes]
  | cons b rest ih =>
    rw [Memory.setBytes, ih, Memory.get_set]
    by_cases h1 : c = a
    · subst h1; simp
    · by_cases h2 : a + 1 ≤ c ∧ c - (a + 1) < rest.length
      · have h3 : a ≤ c ∧ c - a < (b :: rest).length := by simp only [List.length_cons]; omega
        rw [dif_pos h2, dif_pos h3]
        have : c - a = (c - (a + 1)) + 1 := by omega
        simp [this]
      · have h3 : ¬ (a ≤ c ∧ c - a < (b :: rest).length) := by simp only [List.length_cons]; omega
        rw [dif_neg h2, dif_neg h3, if_neg h1]

theorem Memory.mem_insert {m : List Host.Cell} {a : Nat} {v : Byte} {e : Host.Cell} :
    e ∈ Memory.insert m a v ↔ e = (a, v) ∨ e ∈ m := by
  induction m with
  | nil => simp [Memory.insert]
  | cons f rest ih =>
    obtain ⟨b, w⟩ := f
    unfold Memory.insert
    split
    · simp
    · simp only [List.mem_cons, ih]; tauto

theorem Memory.insert_sorted {m : List Host.Cell} {a : Nat} {v : Byte}
    (hs : m.Pairwise (fun c d => c.1 < d.1)) (h : ∀ e ∈ m, e.1 ≠ a) :
    (Memory.insert m a v).Pairwise (fun c d => c.1 < d.1) := by
  induction m with
  | nil => simp [Memory.insert]
  | cons f rest ih =>
    obtain ⟨b, w⟩ := f
    have hb : b ≠ a := h (b, w) (by simp)
    rw [List.pairwise_cons] at hs
    unfold Memory.insert
    split
    · rename_i hab
      refine List.pairwise_cons.2 ⟨fun e he => ?_, List.pairwise_cons.2 hs⟩
      rcases List.mem_cons.1 he with rfl | he
      · exact hab
      · exact lt_trans hab (hs.1 e he)
    · rename_i hab
      refine List.pairwise_cons.2 ⟨fun e he => ?_, ih hs.2 (fun e he => h e (by simp [he]))⟩
      rcases Memory.mem_insert.1 he with rfl | he
      · simp only; omega
      · exact hs.1 e he

/-- A write inside the Memory Image keeps the canonical form. -/
theorem Memory.wf_set {m : List Host.Cell} {a : Nat} {v : Byte} {size : MemSize}
    (h : Memory.wf m size) (ha : a < bytesOf size) : Memory.wf (Memory.set m a v) size := by
  have he : (Memory.erase m a).Pairwise (fun c d => c.1 < d.1) := h.1.filter _
  unfold Memory.set
  split
  · exact ⟨he, fun c hc => h.2 c (Memory.mem_erase.1 hc).1⟩
  · rename_i hv
    refine ⟨Memory.insert_sorted he (fun e hm => (Memory.mem_erase.1 hm).2), fun c hc => ?_⟩
    rcases Memory.mem_insert.1 hc with rfl | hc
    · exact ⟨ha, hv⟩
    · exact h.2 c (Memory.mem_erase.1 hc).1

/-- A block of writes inside the Memory Image keeps the canonical form. -/
theorem Memory.wf_setBytes {m : List Host.Cell} {a : Nat} {bs : List Byte} {size : MemSize}
    (h : Memory.wf m size) (ha : a + bs.length ≤ bytesOf size) : Memory.wf (Memory.setBytes m a bs) size := by
  induction bs generalizing m a with
  | nil => exact h
  | cons b rest ih =>
    simp only [List.length_cons] at ha
    exact ih (Memory.wf_set h (by omega)) (by omega)

@[simp] theorem Memory.length_getBytes (m : List Host.Cell) (a n : Nat) : (Memory.getBytes m a n).length = n := by
  simp [Memory.getBytes]

/-- The memory after reset is canonical. -/
theorem Memory.wf_nil (size : MemSize) : Memory.wf [] size := ⟨List.Pairwise.nil, by simp⟩

end Sys2Proof.Machine
end

