-- ==== Sys2Proof/Laws/Ops.lean ====
section
/-! SUPPORT. One lemma per shared operation: everything it can do. Later proofs cite these and do not unfold the
operations. -/

namespace Sys2Proof.Machine

/-! ## Registers, stack, cells, keys -/

@[simp] theorem State.reg_setReg (s : State) (r q : Reg) (b : Byte) :
    (s.setReg r b).reg q = if q = r then b else s.reg q := by
  simp only [State.reg, State.setReg_v, Vector.getElem_set, Fin.ext_iff, eq_comm]

theorem Display.cell_setCell (d : Display) (x cx : Fin 64) (y cy : Fin 32) (b : Byte) :
    Display.cell (Display.setCell d x y b) cx cy = if cx = x ∧ cy = y then b else Display.cell d cx cy := by
  unfold Display.cell Display.setCell
  rw [Vector.getElem_set]
  by_cases hx : cx = x
  · subst hx
    rw [if_pos rfl, Vector.getElem_set]
    by_cases hy : cy = y
    · subst hy; simp
    · have : ¬ y.val = cy.val := fun h => hy (Fin.ext h.symm)
      simp [this, hy]
  · have : ¬ x.val = cx.val := fun h => hx (Fin.ext h.symm)
    simp [this, hx]

theorem Display.cell_mapCells (f : Byte → Byte) (d : Display) (x : Fin 64) (y : Fin 32) :
    Display.cell (Display.mapCells f d) x y = f (Display.cell d x y) := by
  simp [Display.cell, Display.mapCells]

/-- Two displays with the same cells are the same display. -/
theorem Display.ext_cell {d e : Display} (h : ∀ x y, Display.cell d x y = Display.cell e x y) : d = e := by
  refine Vector.ext fun i hi => Vector.ext fun j hj => ?_
  exact h ⟨i, hi⟩ ⟨j, hj⟩

/-! ## The pieces of the state after each update -/

@[simp] theorem State.read_setReg (s : State) (r : Reg) (b : Byte) (p : Piece) :
    (s.setReg r b).read p = if p = .reg r then b.toNat else s.read p := by
  cases p with
  | reg q => by_cases h : q = r <;> simp [State.read, h]
  | _ => simp [State.read, State.entry, State.byte, State.cell, State.pressed]

@[simp] theorem State.read_setI (s : State) (w : Word) (p : Piece) :
    (s.setI w).read p = if p = .index then w.toNat else s.read p := by
  cases p <;> simp [State.read, State.reg, State.entry, State.byte, State.cell, State.pressed]

@[simp] theorem State.read_setPc (s : State) (w : Word) (p : Piece) :
    (s.setPc w).read p = if p = .pc then w.toNat else s.read p := by
  cases p <;> simp [State.read, State.reg, State.entry, State.byte, State.cell, State.pressed]

@[simp] theorem State.read_setDt (s : State) (b : Byte) (p : Piece) :
    (s.setDt b).read p = if p = .dt then b.toNat else s.read p := by
  cases p <;> simp [State.read, State.reg, State.entry, State.byte, State.cell, State.pressed]

@[simp] theorem State.read_setSt (s : State) (b : Byte) (p : Piece) :
    (s.setSt b).read p = if p = .st then b.toNat else s.read p := by
  cases p <;> simp [State.read, State.reg, State.entry, State.byte, State.cell, State.pressed]

@[simp] theorem State.read_drawn (s : State) (p : Piece) :
    s.drawn.read p = if p = .draws then s.draws + 1 else s.read p := by
  cases p <;> simp [State.read, State.reg, State.entry, State.byte, State.cell, State.pressed]

/-- A new display changes cells alone. -/
theorem State.read_setDisp (s : State) (d : Display) (p : Piece) (h : ∀ x y, p ≠ .cell x y) :
    (s.setDisp d).read p = s.read p := by
  cases p with
  | cell x y => exact absurd rfl (h x y)
  | _ => simp [State.read, State.reg, State.entry, State.byte, State.pressed]

/-- A new snapshot changes keys alone. -/
theorem State.read_setKey (s : State) (k : Vector Bool 16) (p : Piece) (h : ∀ r, p ≠ .key r) :
    (s.setKey k).read p = s.read p := by
  cases p with
  | key r => exact absurd rfl (h r)
  | _ => simp [State.read, State.reg, State.entry, State.byte, State.cell]

/-- A block of stored bytes, byte by byte. -/
theorem State.byte_setBytes (s : State) (a c : Nat) (bs : List Byte) :
    (s.setBytes a bs).byte c = if h : a ≤ c ∧ c - a < bs.length then bs[c - a] else s.byte c :=
  Memory.get_setBytes s.mem a c bs

/-- A block of stored bytes changes those bytes alone. -/
theorem State.read_setBytes (s : State) (a : Nat) (bs : List Byte) (p : Piece)
    (h : ∀ c, a ≤ c → c < a + bs.length → p ≠ .byte c) : (s.setBytes a bs).read p = s.read p := by
  cases p with
  | byte c =>
    have hc : ¬ (a ≤ c ∧ c - a < bs.length) := fun hc => h c hc.1 (by omega) rfl
    simp [State.read, State.byte_setBytes, hc]
  | _ => simp [State.read, State.reg, State.entry, State.cell, State.pressed]

/-! ## Stack -/

/-- Everything a push can do (10_state.md R20). -/
theorem push_spec (a : Word) (s : State) :
    (s.sp.val = 16 ∧ push a s = none) ∨
      ∃ h : s.sp.val < 16, push a s =
        some { s with stack := s.stack.set s.sp.val a, sp := ⟨s.sp.val + 1, Nat.succ_lt_succ h⟩ } := by
  by_cases h : s.sp.val < 16
  · exact .inr ⟨h, by simp [push, h]⟩
  · exact .inl ⟨by omega, by simp [push, h]⟩

/-- Everything a pop can do (10_state.md R21). -/
theorem pop_spec (s : State) :
    (s.sp.val = 0 ∧ pop s = none) ∨
      ∃ k : Fin 16, s.sp.val = k.val + 1 ∧ pop s = some (s.entry k, { s with sp := k.castSucc }) := by
  by_cases h : 0 < s.sp.val
  · refine .inr ⟨⟨s.sp.val - 1, by omega⟩, by simp only; omega, ?_⟩
    simp [pop, h, State.entry, Fin.castSucc, Fin.castAdd, Fin.castLE]
  · exact .inl ⟨by omega, by simp [pop, h]⟩

/-! ## Flags -/

/-- A result and its flag, to two registers (42_alu.md R106 to R110). -/
theorem State.setRegFlag_of_ne (s : State) {x : Reg} (r f : Byte) (h : x ≠ vf) :
    s.setRegFlag x r f = (s.setReg x r).setReg vf f := by
  simp [State.setRegFlag, h]

/-- A result and its flag, both to `VF`: one of the two (42_alu.md R114). -/
theorem State.setRegFlag_vf (s : State) (r f : Byte) :
    s.setRegFlag vf r f = s.setReg vf (openVf r f) := by
  simp [State.setRegFlag]

theorem openVf_cases (r f : Byte) :
    (vfOrder = .flagLast ∧ openVf r f = f) ∨ (vfOrder = .resultLast ∧ openVf r f = r) := by
  unfold openVf
  cases h : vfOrder <;> simp

/-- A result and its flag change those two registers alone. -/
theorem State.read_setRegFlag (s : State) (x : Reg) (r f : Byte) (p : Piece) (h : ¬ regOrFlag x p) :
    (s.setRegFlag x r f).read p = s.read p := by
  simp only [regOrFlag, not_or] at h
  by_cases hx : x = vf
  · subst hx; simp [State.setRegFlag_vf, h.2]
  · simp [State.setRegFlag_of_ne s r f hx, h.1, h.2]

/-! ## Fetch, keypad -/

/-- Everything a fetch can do (40_cycle.md R81). -/
theorem fetchWord_spec (s : State) :
    (0xFFF ≤ s.pc.toNat ∧ fetchWord s = none) ∨
      (s.pc.toNat ≤ 0xFFE ∧
        fetchWord s = some (wordOfBytes (s.byte s.pc.toNat) (s.byte (s.pc.toNat + 1)))) := by
  by_cases h : s.pc.toNat ≤ 0xFFE
  · exact .inr ⟨h, if_pos (by simp only [inRange, bytesOf, memSize]; omega)⟩
  · exact .inl ⟨by omega, if_neg (by simp only [inRange, bytesOf, memSize]; omega)⟩

/-- The range check of the spec's pseudocode (20_memory.md R46). -/
theorem inRange_iff (a count : Nat) : inRange a count ↔ count = 0 ∨ a + (count - 1) ≤ 0xFFF := by
  rw [inRange, bytesOf_memSize]

/-- The same check when the Memory Image has 4095 bytes. -/
theorem inRange_4095_iff (a count : Nat) : inRange a count .bytes4095 ↔ count = 0 ∨ a + (count - 1) ≤ 0xFFE := by
  simp [inRange, bytesOf]

/-- The meanings under the value of `MEM_SIZE` the spec takes are the meanings. -/
@[simp] theorem execIn_memSize (i : Instr) (s : State) : execIn memSize i s = exec i s := by
  cases i <;> rfl

/-- execute-one-instruction under the value of `MEM_SIZE` the spec takes is the step. -/
@[simp] theorem cycleIn_memSize (s : State) : cycleIn memSize s = step s := by
  simp only [cycleIn, finishCycle, step, cycle, execIn_memSize]

/-- A key number of 16 keys, or none above (45_keypad_timers.md R151). -/
theorem keyOf_spec (b : Byte) :
    (∃ k : Reg, k.val = b.toNat ∧ keyOf b = some k) ∨ (15 < b.toNat ∧ keyOf b = none) := by
  by_cases h : b.toNat < 16
  · exact .inl ⟨⟨b.toNat, h⟩, rfl, by simp [keyOf, h]⟩
  · exact .inr ⟨by omega, by simp [keyOf, h, keyIndexPolicy]⟩

/-- One step, by phases (40_cycle.md R80 to R83). -/
theorem step_spec (s : State) :
    (fetchWord s = none ∧ step s = .fault (.outOfBounds s.pc)) ∨
      (∃ w, fetchWord s = some w ∧ decodeWord w = none ∧ step s = .fault (.unknownOpcode (s.pc + 2))) ∨
      ∃ w i, fetchWord s = some w ∧ decodeWord w = some i ∧ step s = exec i s.advance := by
  unfold step cycle finishCycle
  cases hf : fetchWord s with
  | none => exact .inl ⟨rfl, rfl⟩
  | some w =>
    refine .inr ?_
    cases hd : decodeWord w with
    | none => exact .inl ⟨w, rfl, hd, by simp only [hd]; rfl⟩
    | some i => exact .inr ⟨w, i, rfl, hd, by simp only [hd]⟩

/-! ## Reset -/

/-- The default font is the content the font area is held against, so writing it lists nothing. -/
theorem setBytes_font : Memory.setBytes State.reset.mem fontBase font.toList = [] := by decide +kernel

/-- A reset with the default font leaves the machine of `State.reset`, the counter of draws apart. -/
@[simp] theorem resetOp_font (s : State) : resetOp s font = { State.reset with draws := s.draws } := by
  rw [resetOp, setBytes_font]
  rfl

/-- Memory after a reset with any font (70_reset_and_hazards.md R180): its glyphs in the font area, 0 elsewhere. -/
theorem byte_resetOp (s : State) (table : Font) (a : Nat) :
    (resetOp s table).byte a = if h : 0x050 ≤ a ∧ a - 0x050 < 80 then table[a - 0x050] else 0 := by
  rw [State.byte, resetOp, Memory.get_setBytes]
  by_cases h : 0x050 ≤ a ∧ a - 0x050 < 80
  · rw [dif_pos h, dif_pos (by simpa [fontBase] using h)]
    simp [fontBase]
  · rw [dif_neg h, dif_neg (by simpa [fontBase] using h)]
    show resetByte a = 0
    rw [resetByte]
    split
    · rename_i hb
      exact List.getD_eq_default _ _ (by simp only [fontBase, Vector.length_toList] at hb ⊢; omega)
    · rfl

/-- Memory after a reset with any font is canonical, for either memory size. -/
theorem wf_resetOp (s : State) (table : Font) (size : MemSize) : Memory.wf (resetOp s table).mem size :=
  Memory.wf_setBytes (Memory.wf_nil size) (by cases size <;> simp [fontBase, bytesOf])

/-! ## Drawing -/

/-- One pixel: outside the grid nothing; inside, its cell is toggled and a collision sets the flag (44_display.md R131,
R132 a, c, d). -/
theorem drawPixel_spec (xx yy : Nat) (c : Canvas) :
    (¬ (xx < 64 ∧ yy < 32) ∧ drawPixel xx yy c = c) ∨
      ∃ (x : Fin 64) (y : Fin 32), x.val = xx ∧ y.val = yy ∧
        (drawPixel xx yy c).disp = Display.setCell c.disp x y (toggleCell (Display.cell c.disp x y)) ∧
        (drawPixel xx yy c).flag = if Display.cell c.disp x y = cellOn then 1 else c.flag := by
  by_cases h : xx < 64 ∧ yy < 32
  · refine .inr ⟨⟨xx, h.1⟩, ⟨yy, h.2⟩, rfl, rfl, ?_, ?_⟩
    · simp [drawPixel, h]
    · simp [drawPixel, h, drawVf]
  · exact .inl ⟨h, by simp [drawPixel, h]⟩

end Sys2Proof.Machine
end

