-- ==== Sys2Proof/Laws/PerInstr.lean ====
section
/-! SUPPORT. Per instruction: the word the encoder gives an instruction is of the instruction's row of R66
(30_encoding.md R64), and that row stands in the table. -/

namespace Sys2Proof.Laws

theorem formNNN_mask (t : BitVec 4) (nnn : Addr12) : formNNN t nnn &&& 0xF000#16 = t ++ 0x000#12 := by
  apply BitVec.eq_of_getLsbD_eq
  intro i hi
  simp only [formNNN, BitVec.getLsbD_and, BitVec.getLsbD_append]
  interval_cases i <;> simp

theorem formXNN_mask (t : BitVec 4) (x : Reg) (nn : Byte) : formXNN t x nn &&& 0xF000#16 = t ++ 0x000#12 := by
  apply BitVec.eq_of_getLsbD_eq
  intro i hi
  simp only [formXNN, BitVec.getLsbD_and, BitVec.getLsbD_append]
  interval_cases i <;> simp

theorem formXNN_mask_low (t : BitVec 4) (x : Reg) (nn : Byte) :
    formXNN t x nn &&& 0xF0FF#16 = t ++ 0x0#4 ++ nn := by
  apply BitVec.eq_of_getLsbD_eq
  intro i hi
  simp only [formXNN, BitVec.getLsbD_and, BitVec.getLsbD_append]
  interval_cases i <;> simp

theorem formXYN_mask (t : BitVec 4) (x y : Reg) (n : BitVec 4) : formXYN t x y n &&& 0xF000#16 = t ++ 0x000#12 := by
  apply BitVec.eq_of_getLsbD_eq
  intro i hi
  simp only [formXYN, BitVec.getLsbD_and, BitVec.getLsbD_append]
  interval_cases i <;> simp

theorem formXYN_mask_low (t : BitVec 4) (x y : Reg) (n : BitVec 4) :
    formXYN t x y n &&& 0xF00F#16 = t ++ 0x00#8 ++ n := by
  apply BitVec.eq_of_getLsbD_eq
  intro i hi
  simp only [formXYN, BitVec.getLsbD_and, BitVec.getLsbD_append]
  interval_cases i <;> simp

end Sys2Proof.Laws

namespace Sys2Proof.Laws.EncodeRow

/-- The encoder's word is of the instruction's row, a row of the table. -/
def Statement (i : Instr) : Prop := rowOf i ∈ opcodeTable ∧ (rowOf i).accepts (encode i)

theorem cls : Statement .cls :=
  ⟨by simp [opcodeTable, rowOf], rfl⟩

theorem ret : Statement .ret :=
  ⟨by simp [opcodeTable, rowOf], rfl⟩

theorem jp (nnn : Addr12) : Statement (.jp nnn) :=
  ⟨by simp [opcodeTable, rowOf], formNNN_mask _ nnn⟩

theorem call (nnn : Addr12) : Statement (.call nnn) :=
  ⟨by simp [opcodeTable, rowOf], formNNN_mask _ nnn⟩

theorem seImm (x : Reg) (nn : Byte) : Statement (.seImm x nn) :=
  ⟨by simp [opcodeTable, rowOf], formXNN_mask _ x nn⟩

theorem sneImm (x : Reg) (nn : Byte) : Statement (.sneImm x nn) :=
  ⟨by simp [opcodeTable, rowOf], formXNN_mask _ x nn⟩

theorem seReg (x y : Reg) : Statement (.seReg x y) :=
  ⟨by simp [opcodeTable, rowOf], formXYN_mask_low _ x y _⟩

theorem ldImm (x : Reg) (nn : Byte) : Statement (.ldImm x nn) :=
  ⟨by simp [opcodeTable, rowOf], formXNN_mask _ x nn⟩

theorem addImm (x : Reg) (nn : Byte) : Statement (.addImm x nn) :=
  ⟨by simp [opcodeTable, rowOf], formXNN_mask _ x nn⟩

theorem ldReg (x y : Reg) : Statement (.ldReg x y) :=
  ⟨by simp [opcodeTable, rowOf], formXYN_mask_low _ x y _⟩

theorem orReg (x y : Reg) : Statement (.orReg x y) :=
  ⟨by simp [opcodeTable, rowOf], formXYN_mask_low _ x y _⟩

theorem andReg (x y : Reg) : Statement (.andReg x y) :=
  ⟨by simp [opcodeTable, rowOf], formXYN_mask_low _ x y _⟩

theorem xorReg (x y : Reg) : Statement (.xorReg x y) :=
  ⟨by simp [opcodeTable, rowOf], formXYN_mask_low _ x y _⟩

theorem addReg (x y : Reg) : Statement (.addReg x y) :=
  ⟨by simp [opcodeTable, rowOf], formXYN_mask_low _ x y _⟩

theorem sub (x y : Reg) : Statement (.sub x y) :=
  ⟨by simp [opcodeTable, rowOf], formXYN_mask_low _ x y _⟩

theorem shr (x y : Reg) : Statement (.shr x y) :=
  ⟨by simp [opcodeTable, rowOf], formXYN_mask_low _ x y _⟩

theorem subn (x y : Reg) : Statement (.subn x y) :=
  ⟨by simp [opcodeTable, rowOf], formXYN_mask_low _ x y _⟩

theorem shl (x y : Reg) : Statement (.shl x y) :=
  ⟨by simp [opcodeTable, rowOf], formXYN_mask_low _ x y _⟩

theorem sneReg (x y : Reg) : Statement (.sneReg x y) :=
  ⟨by simp [opcodeTable, rowOf], formXYN_mask_low _ x y _⟩

theorem ldI (nnn : Addr12) : Statement (.ldI nnn) :=
  ⟨by simp [opcodeTable, rowOf], formNNN_mask _ nnn⟩

theorem jpV0 (nnn : Addr12) : Statement (.jpV0 nnn) :=
  ⟨by simp [opcodeTable, rowOf], formNNN_mask _ nnn⟩

theorem rnd (x : Reg) (nn : Byte) : Statement (.rnd x nn) :=
  ⟨by simp [opcodeTable, rowOf], formXNN_mask _ x nn⟩

theorem drw (x y : Reg) (n : Nat) : Statement (.drw x y n) :=
  ⟨by simp [opcodeTable, rowOf], formXYN_mask _ x y _⟩

theorem skp (x : Reg) : Statement (.skp x) :=
  ⟨by simp [opcodeTable, rowOf], formXNN_mask_low _ x _⟩

theorem sknp (x : Reg) : Statement (.sknp x) :=
  ⟨by simp [opcodeTable, rowOf], formXNN_mask_low _ x _⟩

theorem ldVxDt (x : Reg) : Statement (.ldVxDt x) :=
  ⟨by simp [opcodeTable, rowOf], formXNN_mask_low _ x _⟩

theorem ldVxK (x : Reg) : Statement (.ldVxK x) :=
  ⟨by simp [opcodeTable, rowOf], formXNN_mask_low _ x _⟩

theorem ldDtVx (x : Reg) : Statement (.ldDtVx x) :=
  ⟨by simp [opcodeTable, rowOf], formXNN_mask_low _ x _⟩

theorem ldStVx (x : Reg) : Statement (.ldStVx x) :=
  ⟨by simp [opcodeTable, rowOf], formXNN_mask_low _ x _⟩

theorem addI (x : Reg) : Statement (.addI x) :=
  ⟨by simp [opcodeTable, rowOf], formXNN_mask_low _ x _⟩

theorem ldF (x : Reg) : Statement (.ldF x) :=
  ⟨by simp [opcodeTable, rowOf], formXNN_mask_low _ x _⟩

theorem ldB (x : Reg) : Statement (.ldB x) :=
  ⟨by simp [opcodeTable, rowOf], formXNN_mask_low _ x _⟩

theorem storeRegs (x : Reg) : Statement (.storeRegs x) :=
  ⟨by simp [opcodeTable, rowOf], formXNN_mask_low _ x _⟩

theorem loadRegs (x : Reg) : Statement (.loadRegs x) :=
  ⟨by simp [opcodeTable, rowOf], formXNN_mask_low _ x _⟩

end Sys2Proof.Laws.EncodeRow
end

