-- ==== Sys2Proof/Tests/Slice0.lean ====
section
/-! SUPPORT. Tests of the model: words written out from the encodings of 30_encoding.md R66, vectors of
95_test_vectors.md (each named by its id there), and, for every statement with hypotheses, a state and operands that
meet them (`witness_<statement>`). Expected values come from the spec. -/

open Sys2Proof Sys2Proof.Machine

namespace Sys2Proof.Tests

/-! ## Helpers -/

/-- The answer of the step that fetches a word placed at `pc`. -/
def stepWord (w : Nat) (s : State) : Answer := step (s.withFetchWord 16 w)

/-- The answer is a next state that passes a check. -/
def goesOn (a : Answer) (check : State → Bool) : Bool := match a with | .next t => check t | _ => false

/-- The state of a next answer. -/
def after (a : Answer) : State := match a with | .next t => t | _ => State.reset

/-- Registers set one by one. -/
def regs (l : List (Reg × Byte)) (s : State) : State := l.foldl (fun s p => s.setReg p.1 p.2) s

/-- Cells set one by one. -/
def cells (l : List (Fin 64 × Fin 32 × Byte)) (s : State) : State :=
  l.foldl (fun s p => s.setDisp (Display.setCell s.disp p.1 p.2.1 p.2.2)) s

/-- The keys that are pressed. -/
def pressing (l : List Reg) (s : State) : State := s.setKey (Vector.ofFn (fun k => decide (k ∈ l)))

/-- `n` entries 0x202 on the stack. -/
def deep (n : Fin 17) (s : State) : State := { s with sp := n, stack := Vector.replicate 16 0x202 }

/-! ## WellFormed -/

theorem test_row_count_16_is_refused : WellFormed (.drw 0 0 16) = false := by decide
theorem test_row_count_15_is_admitted : WellFormed (.drw 0 0 15) = true := by decide

/-! ## Decoding: one word per constructor, bit by bit (R66) -/

theorem test_decode_cls : decodeWord 0b0000000011100000#16 = some .cls := by decide
theorem test_decode_ret : decodeWord 0b0000000011101110#16 = some .ret := by decide
theorem test_decode_jp : decodeWord 0b0001001000110100#16 = some (.jp 0x234) := by decide
theorem test_decode_call : decodeWord 0b0010001100000000#16 = some (.call 0x300) := by decide
theorem test_decode_seImm : decodeWord 0b0011001101000010#16 = some (.seImm 3 0x42) := by decide
theorem test_decode_sneImm : decodeWord 0b0100001101000011#16 = some (.sneImm 3 0x43) := by decide
theorem test_decode_seReg : decodeWord 0b0101000100100000#16 = some (.seReg 1 2) := by decide
theorem test_decode_ldImm : decodeWord 0b0110101011111111#16 = some (.ldImm 0xA 0xFF) := by decide
theorem test_decode_addImm : decodeWord 0b0111000111111111#16 = some (.addImm 1 0xFF) := by decide
theorem test_decode_ldReg : decodeWord 0b1000000100100000#16 = some (.ldReg 1 2) := by decide
theorem test_decode_orReg : decodeWord 0b1000000100100001#16 = some (.orReg 1 2) := by decide
theorem test_decode_andReg : decodeWord 0b1000000100100010#16 = some (.andReg 1 2) := by decide
theorem test_decode_xorReg : decodeWord 0b1000000100100011#16 = some (.xorReg 1 2) := by decide
theorem test_decode_addReg : decodeWord 0b1000000000010100#16 = some (.addReg 0 1) := by decide
theorem test_decode_sub : decodeWord 0b1000000011110101#16 = some (.sub 0 0xF) := by decide
theorem test_decode_shr : decodeWord 0b1000000000010110#16 = some (.shr 0 1) := by decide
theorem test_decode_subn : decodeWord 0b1000000000010111#16 = some (.subn 0 1) := by decide
theorem test_decode_shl : decodeWord 0b1000000000011110#16 = some (.shl 0 1) := by decide
theorem test_decode_sneReg : decodeWord 0b1001000100100000#16 = some (.sneReg 1 2) := by decide
theorem test_decode_ldI : decodeWord 0b1010001100010000#16 = some (.ldI 0x310) := by decide
theorem test_decode_jpV0 : decodeWord 0b1011111111111111#16 = some (.jpV0 0xFFF) := by decide
theorem test_decode_rnd : decodeWord 0b1100111100001111#16 = some (.rnd 0xF 0x0F) := by decide
theorem test_decode_drw : decodeWord 0b1101000000010101#16 = some (.drw 0 1 5) := by decide
theorem test_decode_skp : decodeWord 0b1110001010011110#16 = some (.skp 2) := by decide
theorem test_decode_sknp : decodeWord 0b1110001010100001#16 = some (.sknp 2) := by decide
theorem test_decode_ldVxDt : decodeWord 0b1111001000000111#16 = some (.ldVxDt 2) := by decide
theorem test_decode_ldVxK : decodeWord 0b1111000100001010#16 = some (.ldVxK 1) := by decide
theorem test_decode_ldDtVx : decodeWord 0b1111000000010101#16 = some (.ldDtVx 0) := by decide
theorem test_decode_ldStVx : decodeWord 0b1111001100011000#16 = some (.ldStVx 3) := by decide
theorem test_decode_addI : decodeWord 0b1111000100011110#16 = some (.addI 1) := by decide
theorem test_decode_ldF : decodeWord 0b1111001000101001#16 = some (.ldF 2) := by decide
theorem test_decode_ldB : decodeWord 0b1111000000110011#16 = some (.ldB 0) := by decide
theorem test_decode_storeRegs : decodeWord 0b1111001001010101#16 = some (.storeRegs 2) := by decide
theorem test_decode_loadRegs : decodeWord 0b1111001001100101#16 = some (.loadRegs 2) := by decide

/-- The unknown words of 95_test_vectors.md section 2.6. -/
theorem test_unknown_words :
    ([0x0000, 0x00E1, 0x00EF, 0x00FD, 0x0123, 0x5121, 0x512F, 0x8128, 0x812D, 0x812F, 0x9121, 0xE000, 0xE09F, 0xE19D,
      0xF000, 0xF01F, 0xF056, 0xF075, 0xF085, 0xFFFF] : List Word).all (fun w => (decodeWord w).isNone) = true := by
  decide

theorem test_table_word : decodeTableWord 16 0x600A = some (.ldImm 0 0x0A) := by decide
theorem test_first_byte_is_high : decodeBytes [0x80, 0x14, 0x77] = .ok (.addReg 0 1, [0x77]) := by rfl
theorem test_one_byte_is_no_instruction : decodeBytes [0x60] = .error .truncated := by rfl
theorem test_opcode_table_has_34_rows : opcodeTable.length = 34 := by decide

/-! ## Control flow (95_test_vectors.md 2.1) -/

theorem test_F1 : stepWord 0x00EE State.reset = .fault (.stackUnderflow 0x202) := by rfl
theorem test_F2 : goesOn (stepWord 0x00EE
    { State.reset with sp := 2, stack := (Vector.replicate 16 0x202).set 1 0x345 })
    (fun t => t.pc = 0x345 ∧ t.sp = 1) = true := by decide
theorem test_F3 : goesOn (stepWord 0x1234 State.reset) (fun t => t.pc = 0x234) = true := by decide
theorem test_F4 : goesOn (stepWord 0x1200 State.reset) (fun t => t = State.reset.withFetchWord 16 0x1200) = true := by
  decide
theorem test_F8 : goesOn (stepWord 0x2300 (deep 15 State.reset))
    (fun t => t.pc = 0x300 ∧ t.sp = 16 ∧ t.entry 15 = 0x202) = true := by decide
theorem test_F9 : stepWord 0x2300 (deep 16 State.reset) = .fault (.stackOverflow 0x202) := by rfl
theorem test_F11 : goesOn (stepWord 0x3343 (regs [(3, 0x42)] State.reset)) (fun t => t.pc = 0x202) = true := by decide
theorem test_F12 : goesOn (stepWord 0x4342 (regs [(3, 0x42)] State.reset)) (fun t => t.pc = 0x202) = true := by decide
theorem test_F13 : goesOn (stepWord 0x4343 (regs [(3, 0x42)] State.reset)) (fun t => t.pc = 0x204) = true := by decide
theorem test_F14 : goesOn (stepWord 0x5120 (regs [(1, 7), (2, 7)] State.reset)) (fun t => t.pc = 0x204) = true := by
  decide
theorem test_F15 : goesOn (stepWord 0x5120 (regs [(1, 7), (2, 8)] State.reset)) (fun t => t.pc = 0x202) = true := by
  decide
theorem test_F17 : goesOn (stepWord 0x9120 (regs [(1, 7), (2, 7)] State.reset)) (fun t => t.pc = 0x202) = true := by
  decide
theorem test_F18 : goesOn (stepWord 0x9120 (regs [(1, 7), (2, 8)] State.reset)) (fun t => t.pc = 0x204) = true := by
  decide
theorem test_F20 : goesOn (stepWord 0xB200 (regs [(0, 4)] State.reset)) (fun t => t.pc = 0x204) = true := by decide
theorem test_F21 : goesOn (stepWord 0xBFFF (regs [(0, 0xFF)] State.reset)) (fun t => t.pc = 0x10FE) = true := by decide
theorem test_F22 : goesOn (stepWord 0x3000 (State.reset.setPc 0xFFC)) (fun t => t.pc = 0x1000) = true := by decide
theorem test_F23 : goesOn (stepWord 0x6000 (State.reset.setPc 0xFFE)) (fun t => t.pc = 0x1000) = true := by decide
theorem test_F24 : step (State.reset.setPc 0xFFF) = .fault (.outOfBounds 0xFFF) := by rfl
theorem test_F25 : goesOn (stepWord 0x6105 (State.reset.setPc 0x201)) (fun t => t.pc = 0x203 ∧ t.reg 1 = 5) = true := by
  decide
theorem test_unknown_word_leaves_pc_advanced : stepWord 0x5121 State.reset = .fault (.unknownOpcode 0x202) := by rfl

/-! ## Arithmetic and logic (95_test_vectors.md 2.2) -/

theorem test_A3 : goesOn (stepWord 0x7001 (regs [(0, 0xFF), (15, 7)] State.reset))
    (fun t => t.reg 0 = 0 ∧ t.reg 15 = 7) = true := by decide
theorem test_A5 : goesOn (stepWord 0x7F01 (regs [(15, 0xFF)] State.reset)) (fun t => t.reg 15 = 0) = true := by decide
theorem test_A6 : goesOn (stepWord 0x8120 (regs [(1, 0xF0), (2, 0x3C)] State.reset))
    (fun t => t.reg 1 = 0x3C) = true := by decide
theorem test_A7 : goesOn (stepWord 0x8121 (regs [(1, 0xF0), (2, 0x3C), (15, 9)] State.reset))
    (fun t => t.reg 1 = 0xFC ∧ t.reg 15 = 9) = true := by decide
theorem test_A8 : goesOn (stepWord 0x8122 (regs [(1, 0xF0), (2, 0x3C), (15, 9)] State.reset))
    (fun t => t.reg 1 = 0x30 ∧ t.reg 15 = 9) = true := by decide
theorem test_A9 : goesOn (stepWord 0x8123 (regs [(1, 0xF0), (2, 0x3C), (15, 9)] State.reset))
    (fun t => t.reg 1 = 0xCC ∧ t.reg 15 = 9) = true := by decide
theorem test_A12 : goesOn (stepWord 0x8014 (regs [(0, 0x7F), (1, 0x80), (15, 1)] State.reset))
    (fun t => t.reg 0 = 0xFF ∧ t.reg 15 = 0) = true := by decide
theorem test_A15 : goesOn (stepWord 0x80F4 (regs [(0, 0xFF), (15, 1)] State.reset))
    (fun t => t.reg 0 = 0 ∧ t.reg 15 = 1) = true := by decide
theorem test_A16 : goesOn (stepWord 0x8015 (regs [(0, 5), (1, 0xA), (15, 1)] State.reset))
    (fun t => t.reg 0 = 0xFB ∧ t.reg 15 = 0) = true := by decide
theorem test_A18 : goesOn (stepWord 0x8015 (regs [(0, 7), (1, 7), (15, 1)] State.reset))
    (fun t => t.reg 0 = 0 ∧ t.reg 15 = 0) = true := by decide
theorem test_A22 : goesOn (stepWord 0x8016 (regs [(0, 3), (1, 0xFF)] State.reset))
    (fun t => t.reg 0 = 1 ∧ t.reg 1 = 0xFF ∧ t.reg 15 = 1) = true := by decide
theorem test_A23 : goesOn (stepWord 0x8016 (regs [(0, 0x80), (15, 1)] State.reset))
    (fun t => t.reg 0 = 0x40 ∧ t.reg 15 = 0) = true := by decide
theorem test_A27 : goesOn (stepWord 0x8017 (regs [(0, 5), (1, 0xA)] State.reset))
    (fun t => t.reg 0 = 5 ∧ t.reg 15 = 1) = true := by decide
theorem test_A29 : goesOn (stepWord 0x8017 (regs [(0, 7), (1, 7), (15, 1)] State.reset))
    (fun t => t.reg 0 = 0 ∧ t.reg 15 = 0) = true := by decide
theorem test_A30 : goesOn (stepWord 0x801E (regs [(0, 0x81), (1, 0xFF)] State.reset))
    (fun t => t.reg 0 = 2 ∧ t.reg 1 = 0xFF ∧ t.reg 15 = 1) = true := by decide
theorem test_A31 : goesOn (stepWord 0x801E (regs [(0, 0x40), (15, 1)] State.reset))
    (fun t => t.reg 0 = 0x80 ∧ t.reg 15 = 0) = true := by decide
/-- A36: for every draw, so whatever the free byte is. -/
theorem test_A36 : ∃ t, exec (.rnd 0 0x00) State.reset = .next t ∧ t.reg 0 = 0 := ⟨_, rfl, by simp⟩

/-! ## Index register and memory (95_test_vectors.md 2.3) -/

theorem test_M1 : goesOn (stepWord 0xAFFF State.reset) (fun t => t.i = 0xFFF) = true := by decide
theorem test_M2 : goesOn (stepWord 0xF01E (regs [(0, 2), (15, 5)] (State.reset.setI 0xFFFF)))
    (fun t => t.i = 1 ∧ t.reg 15 = 5) = true := by decide
theorem test_M3 : goesOn (stepWord 0xF01E (regs [(0, 2)] (State.reset.setI 0xFFE)))
    (fun t => t.i = 0x1000) = true := by decide
theorem test_M4 : goesOn (stepWord 0xF029 (regs [(0, 0xA)] State.reset)) (fun t => t.i = 0x082) = true := by decide
theorem test_M5 : goesOn (stepWord 0xF029 (regs [(0, 0xFF)] State.reset)) (fun t => t.i = 0x54B) = true := by decide
theorem test_M7 : goesOn (stepWord 0xF033 (regs [(0, 0x9C)] (State.reset.setI 0x300)))
    (fun t => t.byte 0x300 = 1 ∧ t.byte 0x301 = 5 ∧ t.byte 0x302 = 6) = true := by decide
theorem test_M13 : stepWord 0xF033 (regs [(0, 0xFF)] (State.reset.setI 0xFFE)) = .fault (.outOfBounds 0x202) := by rfl
theorem test_M14 : goesOn (stepWord 0xF255 (regs [(0, 1), (1, 2), (2, 3), (3, 4)] (State.reset.setI 0x300)))
    (fun t => t.byte 0x300 = 1 ∧ t.byte 0x302 = 3 ∧ t.byte 0x303 = 0 ∧ t.i = 0x300) = true := by decide
theorem test_M16 : stepWord 0xFF55 (State.reset.setI 0xFF1) = .fault (.outOfBounds 0x202) := by rfl
theorem test_M19 : goesOn (stepWord 0xF165 (State.reset.setI 0x050))
    (fun t => t.reg 0 = 0xF0 ∧ t.reg 1 = 0x90 ∧ t.i = 0x050) = true := by decide
theorem test_M22 : stepWord 0xF165 (State.reset.setI 0xFFF) = .fault (.outOfBounds 0x202) := by rfl

/-! ## Display (95_test_vectors.md 2.4) -/

theorem test_G1 : goesOn (stepWord 0x00E0 (cells [(3, 4, 255), (5, 4, 134), (6, 4, 254)] State.reset))
    (fun t => t.cell 3 4 = 254 ∧ t.cell 5 4 = 134 ∧ t.cell 6 4 = 254) = true := by decide
/-- G4: clipped at the right edge, no wrap. -/
theorem test_G4 : goesOn (stepWord 0xD011 (regs [(0, 60)] ((State.reset.setI 0x300).setBytes 0x300 [0xFF])))
    (fun t => t.cell 60 0 = 255 ∧ t.cell 63 0 = 255 ∧ t.cell 0 0 = 0 ∧ t.reg 15 = 0) = true := by decide
/-- G8: one collision; fading cells are no collision. -/
theorem test_G8 : goesOn (stepWord 0xD011
    (cells [(0, 0, 255), (1, 0, 254), (2, 0, 74)] ((State.reset.setI 0x300).setBytes 0x300 [0xE0])))
    (fun t => t.cell 0 0 = 254 ∧ t.cell 1 0 = 255 ∧ t.cell 2 0 = 255 ∧ t.reg 15 = 1) = true := by decide

/-! ## Keypad and timers (95_test_vectors.md 2.5) -/

theorem test_K1 : goesOn (stepWord 0xE09E (regs [(0, 7)] (pressing [7] State.reset))) (fun t => t.pc = 0x204) = true := by
  decide
theorem test_K2 : goesOn (stepWord 0xE09E (regs [(0, 7)] (pressing [8] State.reset))) (fun t => t.pc = 0x202) = true := by
  decide
theorem test_K4 : goesOn (stepWord 0xE0A1 (regs [(0, 7)] (pressing [8] State.reset))) (fun t => t.pc = 0x204) = true := by
  decide
theorem test_K7 : stepWord 0xE0A1 (regs [(0, 0xFF)] State.reset) = .fault (.keyIndexOutOfRange 0x202) := by rfl
theorem test_K8 : goesOn (stepWord 0xF30A (regs [(3, 0x55)] State.reset))
    (fun t => t.pc = 0x200 ∧ t.reg 3 = 0x55) = true := by decide
theorem test_K9 : goesOn (stepWord 0xF30A (regs [(3, 0x55)] (pressing [7, 9] State.reset)))
    (fun t => t.pc = 0x202 ∧ t.reg 3 = 7) = true := by decide
theorem test_K12 : goesOn (stepWord 0xF307 (State.reset.setDt 0x2A))
    (fun t => t.reg 3 = 0x2A ∧ t.dt = 0x2A) = true := by decide
theorem test_K13 : goesOn (stepWord 0xF315 (regs [(3, 0xFF)] (State.reset.setSt 3)))
    (fun t => t.dt = 0xFF ∧ t.st = 3) = true := by decide
theorem test_K14 : goesOn (stepWord 0xF318 (regs [(3, 1)] (State.reset.setDt 9)))
    (fun t => t.st = 1 ∧ t.dt = 9) = true := by decide

/-! ## Host operations -/

theorem test_K16_stays_at_zero : (tick (State.reset.setDt 5)).dt = 4 ∧ (tick State.reset).dt = 0 := by decide
theorem test_G19 : decayCell 61 = 1 ∧ decayCell 60 = 60 ∧ decayCell 254 = 194 ∧ decayCell 255 = 255 := by decide
theorem test_K18 : (List.finRange 16).all (fun k =>
    (loadKeys (Vector.ofFn (fun j => decide (j = 3))) (pressing [1, 4] State.reset)).pressed k == decide (k = 3)) =
    true := by decide
/-- 90_conflicts.md C1: M17's store to 0xFFF and F23's fetch from 0xFFE under the other admissible memory size. -/
theorem test_C1_4095_bytes_fail_at_the_last :
    cycleIn .bytes4095 ((State.reset.setI 0xFFF).withFetchWord 16 0xF055) = .fault (.outOfBounds 0x202) ∧
      cycleIn .bytes4095 (State.reset.setPc 0xFFE) = .fault (.outOfBounds 0xFFE) := ⟨rfl, rfl⟩
/-- D21: keys, tick, ten steps, one read of each of the 2048 cells, decay. -/
theorem test_D21_display_read :
    displayRead.length = 2048 ∧ (referenceFrame (Vector.replicate 16 false)).length = 2061 := by
  simp [displayRead, referenceFrame, throttle, List.length_flatMap, dispW, dispH]
theorem test_rom_of_3585_bytes_is_rejected : loadRom (List.replicate 3585 0x12) State.reset = none := by
  refine if_neg ?_
  rw [List.length_replicate]
  decide
theorem test_reset_then_step : step State.reset = .fault (.unknownOpcode 0x202) := by rfl
/-- R180 with another font than the default: its bytes fill 0x050 to 0x09F and nothing around them. -/
theorem test_reset_with_another_font :
    let t := resetOp State.reset (Vector.replicate 80 0xAA)
    t.byte 0x04F = 0 ∧ t.byte 0x050 = 0xAA ∧ t.byte 0x09F = 0xAA ∧ t.byte 0x0A0 = 0 := by decide +kernel
theorem test_rom_start_is_fetched :
    (loadRom [0x60, 0x0A] State.reset).bind fetchWord = some 0x600A#16 := by decide

/-! ## Witnesses: for every statement with hypotheses, operands and a state that meet them -/

/-- A state of a run goes on, so a hypothesis `exec i s = .next t` is met by `t := after (exec i s)`. -/
theorem next_after {a : Answer} (h : goesOn a (fun _ => true) = true) : a = .next (after a) := by
  cases a <;> simp_all [goesOn, after]

/-- Every cell of the display after reset holds 0. -/
theorem cell_reset (x : Fin 64) (y : Fin 32) : State.reset.cell x y = 0 := by
  simp [State.cell, Display.cell, State.reset]

theorem witness_DecodeInvertsEncode : WellFormed (.drw 15 15 15) = true := by decide
theorem witness_EncodeInvertsDecode : decodeWord 0xDFFF = some (.drw 15 15 15) := by decide
theorem witness_DecoderFollowsOpcodeTable_match : ∃ r ∈ opcodeTable, r.accepts 0x801E := by decide
theorem witness_DecoderFollowsOpcodeTable_none : ∀ r ∈ opcodeTable, ¬ r.accepts 0x8128 := by decide
theorem witness_BytesAreHighByteFirst : WellFormed (.drw 0 0 15) = true ∧ fetchWord State.reset = some 0 := by decide
theorem witness_StepRunsDecodedInstruction :
    let s := (State.reset.setPc 0xFFE).withFetchWord 16 0x6000
    s.pc.toNat ≤ 0xFFE ∧
      decodeWord (wordOfBytes (s.byte s.pc.toNat) (s.byte (s.pc.toNat + 1))) = some (.ldImm 0 0) := by decide
theorem witness_FetchPastMemoryFails : 0xFFF ≤ (State.reset.setPc 0xFFF).pc.toNat := by decide
theorem witness_UnknownWordFails :
    let s := State.reset.setPc 0xFFE
    s.pc.toNat ≤ 0xFFE ∧ decodeWord (wordOfBytes (s.byte s.pc.toNat) (s.byte (s.pc.toNat + 1))) = none := by decide
theorem witness_IdleStepsChangeNothing_jump :
    let s := State.reset.withFetchWord 16 0x1200
    fetchWord s = some (0x1#4 ++ 0x200#12) ∧ (0x200#12).toNat = s.pc.toNat := by decide
theorem witness_IdleStepsChangeNothing_wait :
    let s := State.reset.withFetchWord 16 0xF30A
    fetchWord s = some (0xF#4 ++ BitVec.ofFin (w := 4) (3 : Reg) ++ 0x0A#8) ∧ ∀ k, s.pressed k = false := by decide
theorem witness_CompletesUnlessTableFails :
    failureOf (.storeRegs 15) (State.reset.setI 0xFF0) = none ∧
      failureOf (.storeRegs 15) (State.reset.setI 0xFF1) = some .outOfBounds ∧
      failureOf .ret State.reset = some .stackUnderflow ∧
      failureOf (.call 0) (deep 16 State.reset) = some .stackOverflow ∧
      failureOf (.skp 0) (regs [(0, 16)] State.reset) = some .keyIndexOutOfRange := by decide
theorem witness_FailingStepMovesOnlyPc :
    (Block.mk State.reset .ready).phase = .ready ∧
      step (Block.mk State.reset .ready).core = .fault (.unknownOpcode 0x202) := ⟨rfl, rfl⟩
theorem witness_InstructionsWriteOnlyMatrix :
    ∃ t, exec (.storeRegs 15) (State.reset.setI 0xFF0) = .next t := ⟨_, next_after (by decide)⟩
theorem witness_MemorySizeMattersAtLastByte_untouched : ¬ touchesLastByte (State.reset.withFetchWord 16 0xA200) := by
  have h : nextInstr (State.reset.withFetchWord 16 0xA200) = some (.ldI 0x200) := by decide
  rintro (hp | ⟨i, hi, hn, -⟩)
  · exact absurd hp (by decide)
  · rw [h] at hi
    cases hi
    exact absurd hn (by decide)
theorem witness_MemorySizeMattersAtLastByte_fetch : touchesLastByte (State.reset.setPc 0xFFE) := .inl rfl
theorem witness_MemorySizeMattersAtLastByte_data :
    touchesLastByte ((State.reset.setI 0xFFF).withFetchWord 16 0xF055) :=
  .inr ⟨.storeRegs 0, by decide, by decide, by decide⟩
theorem witness_LoadRomCopiesOrRejects :
    (List.replicate 3584 (0x12 : Byte)).length ≤ 3584 ∧ 3584 < (List.replicate 3585 (0x12 : Byte)).length := by
  rw [List.length_replicate, List.length_replicate]
  decide
theorem witness_BootFetchesRomStart : (List.replicate 3582 (0x12 : Byte)).length ≤ 3582 := by
  rw [List.length_replicate]
theorem witness_DecayComesToRest_cleared : (cells [(63, 31, 254)] State.reset).cell 63 31 = 254 := by decide
theorem witness_DecayComesToRest_atRest : ∀ x y, State.reset.cell x y ∈ ([0, 14, 255] : List Byte) := fun x y => by
  simp [cell_reset]
theorem witness_StopLastsUntilReset_constructed : (Block.mk State.reset .constructed).phase = .constructed := rfl
theorem witness_StopLastsUntilReset_stopped :
    let b := Block.mk State.reset (.failed .outOfBounds)
    let c := Block.mk State.reset .aborted
    (b.phase = .aborted ∨ ∃ r, b.phase = .failed r) ∧ (c.phase = .aborted ∨ ∃ r, c.phase = .failed r) ∧
      HostOp.reset ∉ [HostOp.tick, HostOp.decay] ∧ (∃ b', runSchedule [.tick, .decay] b = some b') ∧
      ∃ c', runSchedule [.tick, .decay] c = some c' :=
  ⟨.inr ⟨_, rfl⟩, .inl rfl, by decide, ⟨_, rfl⟩, ⟨_, rfl⟩⟩
theorem witness_PushAndPopFollowDepth :
    (deep 16 State.reset).sp.val = 16 ∧ (deep 15 State.reset).sp.val < 16 ∧ State.reset.sp.val = 0 ∧
      0 < (deep 1 State.reset).sp.val := by decide
theorem witness_RetPopsIntoPc : 0 < (deep 1 State.reset).sp.val ∧ State.reset.sp.val = 0 := by decide
theorem witness_CallPushesReturnAddress :
    (deep 15 State.reset).sp.val < 16 ∧ (deep 16 State.reset).sp.val = 16 := by decide
theorem witness_CallThenReturnRestores :
    ∃ t u, exec (.call 0x300) (deep 15 State.reset) = .next t ∧ u.sp = t.sp ∧ u.stack = t.stack ∧ u ≠ t :=
  ⟨_, (after (exec (.call 0x300) (deep 15 State.reset))).setPc 0x400, next_after (by decide), rfl, rfl, by decide⟩
theorem witness_DepthCountsCallsAndReturns :
    ∃ t, Sys2Proof.core.run 1 (State.reset.withFetchWord 16 0x2300) = .next t := ⟨_, rfl⟩
theorem witness_AddSetsCarry : (0 : Reg) ≠ 0xF := by decide
theorem witness_SubtractionsSetStrictFlag : (0xE : Reg) ≠ 0xF := by decide
theorem witness_ShiftsSetEvictedBit : (0xE : Reg) ≠ 0xF := by decide
theorem witness_FlagIsZeroOrOne :
    (∃ x y, x ≠ 0xF ∧ (Instr.addReg 0 15) ∈ ([.addReg x y, .sub x y, .shr x y, .subn x y, .shl x y] : List Instr)) ∧
      (∃ x y n, (Instr.drw 0 0 1) = .drw x y n) ∧ (∃ t, exec (.addReg 0 15) State.reset = .next t) ∧
      ∃ t, exec (.drw 0 0 1) State.reset = .next t :=
  ⟨⟨0, 15, by decide, by simp⟩, ⟨0, 0, 1, rfl⟩, ⟨_, rfl⟩, ⟨_, next_after (by decide)⟩⟩
theorem witness_RandomIsMasked : (0x0F : Byte).getLsbD 4 = false := by decide
theorem witness_BcdStoresDigits :
    (State.reset.setI 0xFFD).i.toNat + 2 ≤ 0xFFF ∧ 0xFFF < (State.reset.setI 0xFFE).i.toNat + 2 := by decide
theorem witness_StoreRegistersUpToX :
    (State.reset.setI 0xFF0).i.toNat + (15 : Reg).val ≤ 0xFFF ∧
      0xFFF < (State.reset.setI 0xFF1).i.toNat + (15 : Reg).val := by decide
theorem witness_LoadRegistersUpToX :
    (State.reset.setI 0xFFF).i.toNat + (0 : Reg).val ≤ 0xFFF ∧
      0xFFF < (State.reset.setI 0x1000).i.toNat + (0 : Reg).val := by decide
theorem witness_LoadRegistersUpToX_roundTrip :
    ∃ t u : State, exec (.storeRegs 2) (regs [(0, 1), (1, 2), (2, 3)] (State.reset.setI 0x300)) = .next t ∧ u.mem = t.mem ∧
      u.i = t.i ∧ u.reg 2 = 0 :=
  ⟨_, (after (exec (.storeRegs 2) (regs [(0, 1), (1, 2), (2, 3)] (State.reset.setI 0x300)))).setReg 2 0,
    next_after (by decide), rfl, rfl, by simp⟩
theorem witness_StoredWordIsFetched :
    ∃ t, exec (.storeRegs 1) (regs [(0, 0x12), (1, 0x0A)] (State.reset.setI 0x200)) = .next t ∧
      (1 : Reg).val = (0 : Reg).val + 1 ∧ (1 : Reg) ≤ 1 ∧
      t.pc.toNat = effAddr (regs [(0, 0x12), (1, 0x0A)] (State.reset.setI 0x200)) (0 : Reg).val :=
  ⟨_, next_after (by decide), by decide, by decide, by decide⟩
theorem witness_CanonicalMemoryUnique :
    Memory.wf [(0x300, (7 : Byte))] ∧ ∀ a, Memory.get [(0x300, (7 : Byte))] a = Memory.get [(0x300, (7 : Byte))] a :=
  ⟨by decide, fun _ => rfl⟩
theorem witness_DrawTogglesSpriteCells_range :
    (15 : Nat) ≤ 15 ∧ ((0 : Nat) = 0 ∨ (State.reset.setI 0xFFFF).i.toNat + 0 - 1 ≤ 0xFFF) ∧
      (1 = 0 ∨ (State.reset.setI 0xFFF).i.toNat + 1 - 1 ≤ 0xFFF) := by decide
/-- The first cell of the sprite of glyph 0 at the origin is set and collides; the cell below the sprite is not in it. -/
theorem witness_DrawTogglesSpriteCells_bits :
    let s := cells [(0, 0, 255)] (State.reset.setI 0x050)
    spriteBit s 0 0 5 0 0 ∧ s.cell 0 0 = 255 ∧ ¬ spriteBit s 0 0 5 0 5 := by
  refine ⟨?_, by decide, ?_⟩
  · unfold spriteBit; decide
  · unfold spriteBit; decide
theorem witness_DrawTogglesSpriteCells_noCollision :
    ¬ ∃ cx cy, spriteBit (State.reset.setI 0x050) 0 0 5 cx cy ∧ (State.reset.setI 0x050).cell cx cy = 255 := by
  rintro ⟨cx, cy, -, h⟩
  rw [show (State.reset.setI 0x050).cell cx cy = State.reset.cell cx cy from rfl, cell_reset] at h
  exact absurd h (by decide)
theorem witness_DrawChecksItsRows : 0 < 2 ∧ 0xFFF < (State.reset.setI 0xFFF).i.toNat + 2 - 1 := by decide
theorem witness_KeySkips : ((regs [(0, 15)] State.reset).reg 0).toNat = (15 : Reg).val := by decide
theorem witness_KeyNumberAbove15Faults : 15 < ((regs [(0, 16)] State.reset).reg 0).toNat := by decide
theorem witness_WaitTakesLowestKey_pressed :
    let s := pressing [7, 9] State.reset
    s.pressed 7 = true ∧ ∀ j : Reg, j < 7 → s.pressed j = false := by decide
theorem witness_WaitTakesLowestKey_none : ∀ k, State.reset.pressed k = false := by decide
theorem witness_StepKeepsMemoryCanonical :
    let s := (State.reset.setI 0x300).withFetchWord 16 0xF055
    Memory.wf s.mem ∧ ∃ t, step s = .next t := ⟨by decide, _, next_after (by decide)⟩
theorem witness_HostMovesKeepMemoryCanonical :
    Memory.wf (Block.mk State.reset .ready).core.mem ∧
      ∃ b' r, perform (.loadRom [0x12, 0x00]) (Block.mk State.reset .ready) = some (b', r) :=
  ⟨by decide, _, _, rfl⟩
theorem witness_StepKeepsPcInReach :
    let s := (deep 1 (State.reset.setPc 0xFFE)).withFetchWord 16 0x00EE
    PcInReach s ∧ ∃ t, step s = .next t := ⟨⟨by decide, by decide⟩, _, next_after (by decide)⟩
theorem witness_CellsStayInReach :
    CellsInReach State.reset ∧ (∃ t, exec .cls State.reset = .next t) ∧
      (∃ t, step (State.reset.withFetchWord 16 0x00E0) = .next t) ∧
      ∃ b' r, perform .decay (Block.mk State.reset .ready) = some (b', r) :=
  ⟨fun x y => by simp [cell_reset, reachableCells], ⟨_, rfl⟩, ⟨_, next_after (by decide)⟩, _, _, rfl⟩
theorem witness_FadingIsInvisible : SameButFade State.reset (cells [(3, 4, 254)] State.reset) := by
  refine ⟨rfl, fun x y => ?_⟩
  rw [cell_reset, show (cells [(3, 4, 254)] State.reset).cell x y =
    Display.cell (Display.setCell State.reset.disp 3 4 254) x y from rfl, Display.cell_setCell]
  by_cases h : x = 3 ∧ y = 4
  · rw [if_pos h]; decide
  · rw [if_neg h, show Display.cell State.reset.disp x y = 0 from cell_reset x y]

end Sys2Proof.Tests
end

section
/-! The two stack primitives (10_state.md R20, R21): what a push and a pop do to each piece of the state. -/

namespace Sys2Proof.Machine

/-- A new depth changes the piece `sp` alone. -/
theorem State.read_withSp (s : State) (d : Fin 17) (p : Piece) :
    State.read { s with sp := d } p = if p = .sp then d.val else s.read p := by
  cases p <;> simp [State.read, State.reg, State.entry, State.byte, State.cell, State.pressed]

/-- A write to `STACK[j]`, entry by entry. -/
theorem State.entry_withStack (s : State) (j k : Fin 16) (a : Word) :
    State.entry { s with stack := s.stack.set j.val a } k = if k = j then a else s.entry k := by
  simp only [State.entry, Vector.getElem_set, Fin.ext_iff, eq_comm]

/-- A write to `STACK[j]` changes that entry alone. -/
theorem State.read_withStack (s : State) (j : Fin 16) (a : Word) (p : Piece) :
    State.read { s with stack := s.stack.set j.val a } p = if p = .entry j then a.toNat else s.read p := by
  cases p with
  | entry k =>
    simp only [State.read, State.entry_withStack, Piece.entry.injEq]
    split <;> rfl
  | _ => simp [State.read, State.reg, State.byte, State.cell, State.pressed]

/-- A push that succeeds: the value at the old depth, the depth one more, and nothing else (R20). -/
theorem push_some {a : Word} {s t : State} (h : push a s = some t) :
    ∃ j : Fin 16, j.val = s.sp.val ∧ t.sp.val = j.val + 1 ∧ t.entry j = a ∧
      Frame (fun p => p = .sp ∨ p = .entry j) s t := by
  obtain ⟨-, hnone⟩ | ⟨hlt, hsome⟩ := push_spec a s
  · simp [hnone] at h
  · obtain rfl := Option.some.inj (hsome.symm.trans h)
    let j : Fin 16 := ⟨s.sp.val, hlt⟩
    refine ⟨j, rfl, rfl, (State.entry_withStack s j j a).trans (if_pos rfl), fun p hp => ?_⟩
    obtain ⟨hsp, hentry⟩ := not_or.mp hp
    calc State.read { s with stack := s.stack.set j.val a, sp := j.succ } p
        = State.read { s with stack := s.stack.set j.val a } p :=
          (State.read_withSp { s with stack := s.stack.set j.val a } j.succ p).trans (if_neg hsp)
      _ = s.read p := (State.read_withStack s j a p).trans (if_neg hentry)

/-- A push fails on a full stack alone (R20). -/
theorem push_eq_none_iff (a : Word) (s : State) : push a s = none ↔ s.sp.val = 16 := by
  obtain ⟨hfull, hnone⟩ | ⟨hlt, hsome⟩ := push_spec a s
  · simp [hfull, hnone]
  · simp [hsome, hlt.ne]

/-- A pop fails on an empty stack alone (R21). -/
theorem pop_eq_none_iff (s : State) : pop s = none ↔ s.sp.val = 0 := by
  obtain ⟨hempty, hnone⟩ | ⟨k, hsp, hsome⟩ := pop_spec s
  · simp [hempty, hnone]
  · simp [hsome, hsp]

/-- A pop that succeeds: the top entry, the depth one less, and nothing else (R21). -/
theorem pop_some {s t : State} {a : Word} (h : pop s = some (a, t)) :
    ∃ k : Fin 16, k.val + 1 = s.sp.val ∧ a = s.entry k ∧ t.sp.val = k.val ∧ Frame (fun p => p = .sp) s t := by
  obtain ⟨-, hnone⟩ | ⟨k, hsp, hsome⟩ := pop_spec s
  · simp [hnone] at h
  · obtain ⟨rfl, rfl⟩ := Prod.mk.inj (Option.some.inj (hsome.symm.trans h))
    exact ⟨k, hsp.symm, rfl, rfl, fun p hp => (State.read_withSp s k.castSucc p).trans (if_neg hp)⟩

/-- Settles O23: each primitive fails at its end of the depth range, and where it succeeds `push_some` and `pop_some`
say what it does. -/
theorem pushAndPopFollowDepth : Obligations.PushAndPopFollowDepth := by
  refine ⟨fun a s => ⟨(push_eq_none_iff a s).mpr, fun hlt => ?_⟩, fun s => ⟨(pop_eq_none_iff s).mpr, fun hpos => ?_⟩⟩
  · obtain ⟨t, ht⟩ := Option.ne_none_iff_exists'.mp (mt (push_eq_none_iff a s).mp hlt.ne)
    obtain ⟨j, hj, hsp, hentry, hframe⟩ := push_some ht
    refine ⟨t, ht, by rw [hsp, hj], fun k hk => ?_, fun p hp => hframe p fun hw => hp ?_⟩
    · rwa [Fin.ext (hk.trans hj.symm)]
    · exact hw.imp id fun hpj => ⟨j, hj, hpj⟩
  · obtain ⟨⟨a, t⟩, ht⟩ := Option.ne_none_iff_exists'.mp (mt (pop_eq_none_iff s).mp hpos.ne')
    obtain ⟨k, hk, rfl, hsp, hframe⟩ := pop_some ht
    exact ⟨k, t, hk, ht, hsp, hframe⟩

end Sys2Proof.Machine
end

section
/-! The opcode table and the decoder (30_encoding.md R61, R64, R66): a row's mask keeps the fields the decoder branches
on, so a word decodes to an instruction of a row exactly when the row accepts it. -/

namespace Sys2Proof.Laws

/-! ## From an accepting row to the decoded instruction -/

/-- A row with the mask `F000` fixes the type. -/
theorem typeField_of_mask {w v : Word} (h : w &&& 0xF000#16 = v) : typeField w = v.extractLsb' 12 4 := by
  rw [← h, BitVec.extractLsb'_and]
  exact BitVec.and_allOnes.symm

/-- A row with the mask `F00F` fixes the type and the low nibble. -/
theorem fields_of_mask_nibble {w v : Word} (h : w &&& 0xF00F#16 = v) :
    typeField w = v.extractLsb' 12 4 ∧ nField w = v.extractLsb' 0 4 := by
  rw [← h, BitVec.extractLsb'_and, BitVec.extractLsb'_and]
  exact ⟨BitVec.and_allOnes.symm, BitVec.and_allOnes.symm⟩

/-- A row with the mask `F0FF` fixes the type and the low byte. -/
theorem fields_of_mask_byte {w v : Word} (h : w &&& 0xF0FF#16 = v) :
    typeField w = v.extractLsb' 12 4 ∧ nnField w = v.extractLsb' 0 8 := by
  rw [← h, BitVec.extractLsb'_and, BitVec.extractLsb'_and]
  exact ⟨BitVec.and_allOnes.symm, BitVec.and_allOnes.symm⟩

/-- A word that the row of `i` accepts decodes to an instruction of that row, by the row's mask. -/
theorem decodeWord_row_of_accepts {i : Instr} {w : Word} (h : (rowOf i).accepts w) :
    (decodeWord w).map rowOf = some (rowOf i) := by
  cases i with
  | cls | ret =>
    obtain rfl := BitVec.and_allOnes.symm.trans h
    rfl
  | jp | call | seImm | sneImm | ldImm | addImm | ldI | jpV0 | rnd | drw =>
    have ht := typeField_of_mask h
    simp [decodeWord, ht, rowOf]
  | seReg | sneReg | ldReg | orReg | andReg | xorReg | addReg | sub | shr | subn | shl =>
    obtain ⟨ht, hn⟩ := fields_of_mask_nibble h
    simp [decodeWord, decodeType8, ht, hn, rowOf]
  | skp | sknp | ldVxDt | ldVxK | ldDtVx | ldStVx | addI | ldF | ldB | storeRegs | loadRegs =>
    obtain ⟨ht, hnn⟩ := fields_of_mask_byte h
    simp [decodeWord, decodeTypeE, decodeTypeF, ht, hnn, rowOf]

/-! ## From the decoded instruction back to the word -/

/-- The address format rebuilds a word of its type. -/
theorem formNNN_of_fields {w : Word} {t : BitVec 4} (ht : (typeField w).toNat = t.toNat) :
    formNNN t (nnnField w) = w := by
  obtain rfl := BitVec.eq_of_toNat_eq ht
  exact (BitVec.extractLsb'_append_extractLsb'_eq_extractLsb' (start₁ := 0) (len₁ := 12) rfl).trans
    BitVec.extractLsb'_eq_self

/-- The byte format rebuilds a word of its type and low byte. -/
theorem formXNN_of_fields {w : Word} {t : BitVec 4} {nn : Byte} (ht : (typeField w).toNat = t.toNat)
    (hnn : (nnField w).toNat = nn.toNat) : formXNN t (xField w) nn = w := by
  obtain rfl := BitVec.eq_of_toNat_eq ht
  obtain rfl := BitVec.eq_of_toNat_eq hnn
  have hhigh : typeField w ++ BitVec.ofFin (w := 4) (xField w) = w.extractLsb' 8 8 :=
    BitVec.extractLsb'_append_extractLsb'_eq_extractLsb' rfl
  rw [formXNN, hhigh]
  exact (BitVec.extractLsb'_append_extractLsb'_eq_extractLsb' (start₁ := 0) (len₁ := 8) rfl).trans
    BitVec.extractLsb'_eq_self

/-- The nibble format rebuilds a word of its type and low nibble: its last two nibbles are the byte of `formXNN`. -/
theorem formXYN_of_fields {w : Word} {t n : BitVec 4} (ht : (typeField w).toNat = t.toNat)
    (hn : (nField w).toNat = n.toNat) : formXYN t (xField w) (yField w) n = w := by
  obtain rfl := BitVec.eq_of_toNat_eq hn
  have hlow : BitVec.ofFin (w := 4) (yField w) ++ nField w = nnField w :=
    BitVec.extractLsb'_append_extractLsb'_eq_extractLsb' rfl
  calc formXYN t (xField w) (yField w) (nField w)
      = formXNN t (xField w) (BitVec.ofFin (w := 4) (yField w) ++ nField w) := BitVec.append_assoc
    _ = w := by rw [hlow, formXNN_of_fields ht rfl]

theorem encode_of_decodeType0 {w : Word} {i : Instr} (h : decodeType0 w = some i) : encode i = w := by
  unfold decodeType0 at h
  split_ifs at h with hcls hret <;> cases h
  · exact hcls.symm
  · exact hret.symm

theorem encode_of_decodeType8 {w : Word} {i : Instr} (ht : (typeField w).toNat = 0x8)
    (h : decodeType8 w = some i) : encode i = w := by
  unfold decodeType8 at h
  split at h <;> cases h <;> exact formXYN_of_fields ht ‹_›

theorem encode_of_decodeTypeE {w : Word} {i : Instr} (ht : (typeField w).toNat = 0xE)
    (h : decodeTypeE w = some i) : encode i = w := by
  unfold decodeTypeE at h
  split at h <;> cases h <;> exact formXNN_of_fields ht ‹_›

theorem encode_of_decodeTypeF {w : Word} {i : Instr} (ht : (typeField w).toNat = 0xF)
    (h : decodeTypeF w = some i) : encode i = w := by
  unfold decodeTypeF at h
  split at h <;> cases h <;> exact formXNN_of_fields ht ‹_›

/-- A word that decodes is the word of what it decodes to, by the branches of the decoder. -/
theorem encode_of_decodeWord {w : Word} {i : Instr} (h : decodeWord w = some i) : encode i = w := by
  unfold decodeWord at h
  split at h
  case h_1 => exact encode_of_decodeType0 h
  case h_9 ht => exact encode_of_decodeType8 ht h
  case h_15 ht => exact encode_of_decodeTypeE ht h
  case h_16 =>
    have ht : (typeField w).toNat = 0xF := by
      have hlt := (typeField w).isLt
      simp only [imp_false] at *
      omega
    exact encode_of_decodeTypeF ht h
  case h_6 ht | h_10 ht =>
    split_ifs at h with hn
    cases h
    exact formXYN_of_fields ht (congrArg BitVec.toNat hn)
  case h_14 ht =>
    cases h
    exact formXYN_of_fields ht (by simp)
  case h_2 ht | h_3 ht | h_11 ht | h_12 ht =>
    cases h
    exact formNNN_of_fields ht
  case h_4 ht | h_5 ht | h_7 ht | h_8 ht | h_13 ht =>
    cases h
    exact formXNN_of_fields ht rfl

/-! ## The row of an instruction -/

open EncodeRow in
/-- The encoder's word of every instruction is of the instruction's row. -/
theorem encodeRow : ∀ i : Instr, Statement i
  | .cls => cls | .ret => ret | .jp a => jp a | .call a => call a | .seImm x b => seImm x b
  | .sneImm x b => sneImm x b | .seReg x y => seReg x y | .ldImm x b => ldImm x b | .addImm x b => addImm x b
  | .ldReg x y => ldReg x y | .orReg x y => orReg x y | .andReg x y => andReg x y | .xorReg x y => xorReg x y
  | .addReg x y => addReg x y | .sub x y => sub x y | .shr x y => shr x y | .subn x y => subn x y
  | .shl x y => shl x y | .sneReg x y => sneReg x y | .ldI a => ldI a | .jpV0 a => jpV0 a | .rnd x b => rnd x b
  | .drw x y n => drw x y n | .skp x => skp x | .sknp x => sknp x | .ldVxDt x => ldVxDt x | .ldVxK x => ldVxK x
  | .ldDtVx x => ldDtVx x | .ldStVx x => ldStVx x | .addI x => addI x | .ldF x => ldF x | .ldB x => ldB x
  | .storeRegs x => storeRegs x | .loadRegs x => loadRegs x

/-- A word that a row of the table accepts decodes to an instruction of that row. -/
theorem decodeWord_of_row_accepts {r : OpcodeRow} (hr : r ∈ opcodeTable) {w : Word} (h : r.accepts w) :
    ∃ i, decodeWord w = some i ∧ rowOf i = r := by
  obtain ⟨i, -, rfl⟩ := List.mem_map.mp hr
  exact Option.map_eq_some_iff.mp (decodeWord_row_of_accepts h)

/-- No two rows of the table are equal: they differ in their mnemonics. -/
theorem opcodeTable_nodup : opcodeTable.Nodup := by decide

/-- Settles O3: an accepting row is the row of the decoded instruction, so two rows that accept one word are equal; and
a decoded word is accepted by the row of what it decodes to. -/
theorem decoderFollowsOpcodeTable : Obligations.DecoderFollowsOpcodeTable := by
  refine ⟨fun r hr w h => decodeWord_of_row_accepts hr h, ?_, fun w hnone => ?_⟩
  · refine opcodeTable_nodup.imp_of_mem fun {r q} hr hq hne w ⟨hrw, hqw⟩ => hne ?_
    obtain ⟨i, hi, rfl⟩ := decodeWord_of_row_accepts hr hrw
    obtain ⟨j, hj, rfl⟩ := decodeWord_of_row_accepts hq hqw
    exact congrArg rowOf (Option.some.inj (hi.symm.trans hj))
  · refine Option.eq_none_iff_forall_ne_some.mpr fun i hi => ?_
    obtain ⟨hmem, haccepts⟩ := encodeRow i
    exact hnone _ hmem (encode_of_decodeWord hi ▸ haccepts)

end Sys2Proof.Laws
end

section
/-! The decoder on the encoder's words (30_encoding.md R61, R62): each format gives its fields back, so the word of a
well-formed instruction decodes to it. -/

namespace Sys2Proof.Laws

/-! ## The fields of the three formats -/

@[simp] theorem typeField_formNNN (t : BitVec 4) (nnn : Addr12) : typeField (formNNN t nnn) = t :=
  BitVec.extractLsb'_append_eq_left

@[simp] theorem nnnField_formNNN (t : BitVec 4) (nnn : Addr12) : nnnField (formNNN t nnn) = nnn :=
  BitVec.extractLsb'_append_eq_right

@[simp] theorem typeField_formXNN (t : BitVec 4) (x : Reg) (nn : Byte) : typeField (formXNN t x nn) = t :=
  (BitVec.extractLsb'_append_eq_of_le (by decide)).trans BitVec.extractLsb'_append_eq_left

@[simp] theorem xField_formXNN (t : BitVec 4) (x : Reg) (nn : Byte) : xField (formXNN t x nn) = x :=
  congrArg BitVec.toFin ((BitVec.extractLsb'_append_eq_of_le (by decide)).trans BitVec.extractLsb'_append_eq_right)

@[simp] theorem nnField_formXNN (t : BitVec 4) (x : Reg) (nn : Byte) : nnField (formXNN t x nn) = nn :=
  BitVec.extractLsb'_append_eq_right

/-- The format of two registers is the byte format whose byte is the last two nibbles. -/
theorem formXYN_eq_formXNN (t : BitVec 4) (x y : Reg) (n : BitVec 4) :
    formXYN t x y n = formXNN t x (BitVec.ofFin (w := 4) y ++ n) := BitVec.append_assoc

@[simp] theorem typeField_formXYN (t : BitVec 4) (x y : Reg) (n : BitVec 4) : typeField (formXYN t x y n) = t := by
  rw [formXYN_eq_formXNN, typeField_formXNN]

@[simp] theorem xField_formXYN (t : BitVec 4) (x y : Reg) (n : BitVec 4) : xField (formXYN t x y n) = x := by
  rw [formXYN_eq_formXNN, xField_formXNN]

@[simp] theorem yField_formXYN (t : BitVec 4) (x y : Reg) (n : BitVec 4) : yField (formXYN t x y n) = y :=
  congrArg BitVec.toFin ((BitVec.extractLsb'_append_eq_of_le (by decide)).trans BitVec.extractLsb'_append_eq_right)

@[simp] theorem nField_formXYN (t : BitVec 4) (x y : Reg) (n : BitVec 4) : nField (formXYN t x y n) = n :=
  BitVec.extractLsb'_append_eq_right

/-! ## From the word back to the instruction -/

/-- The word of a well-formed instruction decodes to it; only a draw can be ill-formed. -/
theorem decodeWord_encode {i : Instr} (h : WellFormed i) : decodeWord (encode i) = some i := by
  cases i with
  | cls | ret => rfl
  | jp | call | ldI | jpV0 | seImm | sneImm | ldImm | addImm | rnd => simp [encode, decodeWord]
  | seReg | sneReg => simp [encode, decodeWord]
  | ldReg | orReg | andReg | xorReg | addReg | sub | shr | subn | shl => simp [encode, decodeWord, decodeType8]
  | skp | sknp => simp [encode, decodeWord, decodeTypeE]
  | ldVxDt | ldVxK | ldDtVx | ldStVx | addI | ldF | ldB | storeRegs | loadRegs =>
    simp [encode, decodeWord, decodeTypeF]
  | drw x y n =>
    have hn : n < 16 := Nat.lt_succ_of_le (of_decide_eq_true h)
    simp [encode, decodeWord, Nat.mod_eq_of_lt hn]

end Sys2Proof.Laws
end

section
/-! Control transfer (41_flow.md R90, R91, R93 to R97): a jump and a skip write `pc` alone, a return `pc` and `SP`. -/

open Sys2Proof.Laws

namespace Sys2Proof.Machine

/-! ## What the updates of `pc` do -/

/-- A write to `pc` leaves every other piece alone. -/
theorem frame_setPc (s : State) (w : Word) : Frame (fun p => p = .pc) s (s.setPc w) :=
  fun p hp => (State.read_setPc s w p).trans (if_neg hp)

/-- A skip is a write to `pc`: two bytes further when its condition holds (R99), or what it was. -/
theorem State.skipIf_eq_setPc (s : State) (P : Prop) [Decidable P] :
    s.skipIf (decide P) = s.setPc (if P then s.pc + 2 else s.pc) := by
  by_cases h : P
  · simp [State.skipIf, State.advance, h]
  · simp [State.skipIf, State.setPc, h]

/-- A step that ends in a skip: where `pc` stands, and nothing else changed. -/
theorem skip_completes {i : Instr} {s : State} (P : Prop) [Decidable P] (h : exec i s = .next (s.skipIf (decide P))) :
    ∃ t, exec i s = .next t ∧ t.pc = (if P then s.pc + 2 else s.pc) ∧ Frame (fun p => p = .pc) s t := by
  rw [State.skipIf_eq_setPc] at h
  exact ⟨_, h, rfl, frame_setPc s _⟩

/-! ## Return -/

/-- A return goes to the popped entry. -/
theorem exec_ret_of_pop_some {s t : State} {a : Word} (h : pop s = some (a, t)) : exec .ret s = .next (t.setPc a) := by
  simp [exec, execRet, h]

/-- A return with nothing to pop fails. -/
theorem exec_ret_of_pop_none {s : State} (h : pop s = none) : exec .ret s = .fault (.stackUnderflow s.pc) := by
  simp [exec, execRet, h, raise]

/-- Settles O24: a return fails where the pop fails, and otherwise does what the pop and the write to `pc` do. -/
theorem retPopsIntoPc : Obligations.RetPopsIntoPc := by
  refine ⟨rfl, fun s => ⟨fun hpos => ?_, fun hempty => exec_ret_of_pop_none ((pop_eq_none_iff s).mpr hempty)⟩⟩
  obtain ⟨⟨a, t⟩, ht⟩ := Option.ne_none_iff_exists'.mp (mt (pop_eq_none_iff s).mp hpos.ne')
  obtain ⟨k, hk, rfl, hsp, hframe⟩ := pop_some ht
  refine ⟨k, t.setPc (s.entry k), hk, exec_ret_of_pop_some ht, rfl, hsp, fun p hp => ?_⟩
  obtain ⟨hpc, hnsp⟩ := not_or.mp hp
  exact (frame_setPc t _ p hpc).trans (hframe p hnsp)

/-! ## Jumps -/

@[simp] theorem toNat_addrOf (nnn : Addr12) : (addrOf nnn).toNat = nnn.toNat :=
  BitVec.toNat_setWidth_of_le (by decide)

@[simp] theorem toNat_zext16 (b : Byte) : (zext16 b).toNat = b.toNat :=
  BitVec.toNat_setWidth_of_le (by decide)

/-- The largest target of `Bnnn` is `0xFFF + 0xFF` (R97). -/
theorem offset_sum_le (nnn : Addr12) (b : Byte) : nnn.toNat + b.toNat ≤ 0x10FE := by
  have := nnn.isLt
  have := b.isLt
  omega

/-- The target of `Bnnn` is the sum itself: the 16-bit reduction never acts (R97). -/
theorem toNat_offsetTarget (s : State) (nnn : Addr12) :
    (offsetTarget s nnn).toNat = nnn.toNat + (s.reg 0).toNat := by
  have hle := offset_sum_le nnn (s.reg 0)
  rw [offsetTarget, BitVec.toNat_add, toNat_addrOf, toNat_zext16, Nat.mod_eq_of_lt (by omega)]

/-- Settles O25: the target is `nnn` zero-extended, and the jump is one write to `pc`. -/
theorem jumpSetsPc : Obligations.JumpSetsPc := fun nnn s =>
  ⟨decodeWord_encode (i := .jp nnn) rfl, s.setPc (addrOf nnn), rfl, toNat_addrOf nnn, frame_setPc s _⟩

/-- Settles O31: the sum is at most `0x10FE`, so it is its own remainder. -/
theorem jumpWithOffset : Obligations.JumpWithOffset := by
  intro nnn s
  have hle := offset_sum_le nnn (s.reg 0)
  have htarget := toNat_offsetTarget s nnn
  refine ⟨decodeWord_encode (i := .jpV0 nnn) rfl, s.setPc (offsetTarget s nnn), rfl, ?_, ?_, frame_setPc s _⟩
  · rw [State.setPc_pc, htarget, Nat.mod_eq_of_lt (by omega)]
  · rwa [State.setPc_pc, htarget]

/-! ## Skips -/

/-- Settles O29: both forms end in a skip on the comparison of `Vx` with `nn`. -/
theorem immediateSkips : Obligations.ImmediateSkips := fun x nn s =>
  ⟨decodeWord_encode (i := .seImm x nn) rfl, decodeWord_encode (i := .sneImm x nn) rfl,
    skip_completes (s.reg x = nn) rfl, skip_completes (s.reg x ≠ nn) rfl⟩

/-- Settles O30: both forms end in a skip on the comparison of `Vx` with `Vy`. -/
theorem registerSkips : Obligations.RegisterSkips := fun x y s =>
  ⟨decodeWord_encode (i := .seReg x y) rfl, decodeWord_encode (i := .sneReg x y) rfl,
    skip_completes (s.reg x = s.reg y) rfl, skip_completes (s.reg x ≠ s.reg y) rfl⟩

end Sys2Proof.Machine
end

section
/-! The flag-writing instructions with a destination that is not `VF` (42_alu.md R106 to R110): the result goes to `Vx`,
the flag to `VF`, and nothing else changes. -/

open Sys2Proof.Laws

namespace Sys2Proof.Machine

/-! ## A result and its flag, in two registers -/

/-- The result stands in `Vx`: the later write to `VF` is to another register. -/
theorem reg_setRegFlag_dest (s : State) {x : Reg} (r f : Byte) (hx : x ≠ vf) : (s.setRegFlag x r f).reg x = r := by
  rw [State.setRegFlag_of_ne s r f hx, State.reg_setReg, if_neg hx, State.reg_setReg, if_pos rfl]

/-- The flag stands in `VF`, the last register written. -/
theorem reg_setRegFlag_vf (s : State) {x : Reg} (r f : Byte) (hx : x ≠ vf) : (s.setRegFlag x r f).reg vf = f := by
  rw [State.setRegFlag_of_ne s r f hx, State.reg_setReg, if_pos rfl]

/-- An instruction that ends in a write of a result and its flag: both registers, and nothing else changed. -/
theorem resultAndFlag_complete {i : Instr} {s : State} {x : Reg} {r f : Byte} (hx : x ≠ 0xF)
    (h : exec i s = .next (s.setRegFlag x r f)) :
    ∃ t, exec i s = .next t ∧ t.reg x = r ∧ t.reg 0xF = f ∧ Frame (fun p => p = .reg x ∨ p = .reg 0xF) s t :=
  ⟨_, h, reg_setRegFlag_dest s r f hx, reg_setRegFlag_vf s r f hx, State.read_setRegFlag s x r f⟩

/-! ## The flags as numbers -/

theorem flagOf_decide (P : Prop) [Decidable P] : flagOf (decide P) = if P then 1 else 0 := by
  simp [flagOf]

@[simp] theorem toNat_flagOf (c : Bool) : (flagOf c).toNat = c.toNat := by
  cases c <;> rfl

/-- The bit a right shift drops is the remainder of the halving (R108). -/
theorem toNat_lowBitFlag (a : Byte) : (lowBitFlag a).toNat = a.toNat % 2 := by
  rw [lowBitFlag, toNat_flagOf, BitVec.getLsbD, Nat.toNat_testBit, pow_zero, Nat.div_one]

/-- The bit a left shift drops is 1 exactly in the upper half of the byte's range (R110). -/
theorem toNat_highBitFlag (a : Byte) : (highBitFlag a).toNat = a.toNat / 128 := by
  have hbit : a.toNat / 128 < 2 := Nat.div_lt_of_lt_mul a.isLt
  rw [highBitFlag, toNat_flagOf, BitVec.getLsbD, Nat.toNat_testBit]
  exact Nat.mod_eq_of_lt hbit

/-! ## The results as numbers -/

/-- The difference of two bytes, 256 added against the borrow (R107, R109). -/
theorem toNat_sub_byte (a b : Byte) : (a - b).toNat = (a.toNat + 256 - b.toNat) % 256 := by
  have hlt := b.isLt
  rw [BitVec.toNat_sub]
  omega

theorem toNat_shiftRight_one (a : Byte) : (a >>> 1).toNat = a.toNat / 2 := by
  rw [BitVec.toNat_ushiftRight, Nat.shiftRight_one]

theorem toNat_shiftLeft_one (a : Byte) : (a <<< 1).toNat = 2 * a.toNat % 256 := by
  rw [BitVec.toNat_shiftLeft, Nat.shiftLeft_eq, Nat.mul_comm]

/-! ## Addition, subtractions, shifts -/

/-- Settles O34: the result is the sum of two bytes, the flag the comparison of their sum with 255. -/
theorem addSetsCarry : Obligations.AddSetsCarry := by
  refine fun x y s => ⟨decodeWord_encode (i := .addReg x y) rfl, fun hx => ?_⟩
  obtain ⟨t, ht, hresult, hflag, hframe⟩ := resultAndFlag_complete (i := .addReg x y) (s := s) hx rfl
  exact ⟨t, ht, by rw [hresult, BitVec.toNat_add], by rw [hflag, carryFlag, flagOf_decide], hframe⟩

/-- A subtraction completes with the difference and the strict comparison of the same two operands (R107, R109). -/
theorem subtraction_completes {i : Instr} {s : State} {x : Reg} {a b : Byte} (hx : x ≠ 0xF)
    (h : exec i s = .next (s.setRegFlag x (a - b) (greaterFlag a b))) :
    ∃ t, exec i s = .next t ∧ (t.reg x).toNat = (a.toNat + 256 - b.toNat) % 256 ∧
      t.reg 0xF = (if a.toNat > b.toNat then 1 else 0) ∧ Frame (fun p => p = .reg x ∨ p = .reg 0xF) s t := by
  obtain ⟨t, ht, hresult, hflag, hframe⟩ := resultAndFlag_complete hx h
  exact ⟨t, ht, by rw [hresult, toNat_sub_byte], by rw [hflag, greaterFlag, flagOf_decide], hframe⟩

/-- Settles O35: both forms are subtractions, with the operands exchanged. -/
theorem subtractionsSetStrictFlag : Obligations.SubtractionsSetStrictFlag := fun x y _ =>
  ⟨decodeWord_encode (i := .sub x y) rfl, decodeWord_encode (i := .subn x y) rfl,
    fun hx => subtraction_completes hx rfl, fun hx => subtraction_completes hx rfl⟩

/-- Settles O36: a right shift leaves the quotient by 2 and evicts the remainder, a left shift doubles modulo 256 and
evicts the quotient by 128; `y` is decoded and not read. -/
theorem shiftsSetEvictedBit : Obligations.ShiftsSetEvictedBit := by
  refine fun x y s => ⟨decodeWord_encode (i := .shr x y) rfl, decodeWord_encode (i := .shl x y) rfl,
    fun hx => ?_, fun hx => ?_⟩
  · obtain ⟨t, ht, hresult, hflag, hframe⟩ := resultAndFlag_complete (i := .shr x y) (s := s) hx rfl
    exact ⟨t, ht, by rw [hresult, toNat_shiftRight_one], by rw [hflag, toNat_lowBitFlag], hframe⟩
  · obtain ⟨t, ht, hresult, hflag, hframe⟩ := resultAndFlag_complete (i := .shl x y) (s := s) hx rfl
    exact ⟨t, ht, by rw [hresult, toNat_shiftLeft_one], by rw [hflag, toNat_highBitFlag], hframe⟩

end Sys2Proof.Machine
end

section
/-! The index register (43_index_memory.md R120): a write to `I` changes nothing else. -/

open Sys2Proof.Laws

namespace Sys2Proof.Machine

/-- A write to `I` leaves every other piece alone. -/
theorem frame_setI (s : State) (w : Word) : Frame (fun p => p = .index) s (s.setI w) :=
  fun p hp => (State.read_setI s w p).trans (if_neg hp)

/-- Settles O40: the load is one write to `I`, of `nnn` zero-extended. -/
theorem loadIndex : Obligations.LoadIndex := fun nnn s =>
  ⟨decodeWord_encode (i := .ldI nnn) rfl, s.setI (addrOf nnn), rfl, toNat_addrOf nnn, frame_setI s _⟩

end Sys2Proof.Machine
end

section
/-! Clearing the display (44_display.md R130): what 00E0 does to a cell, and with it to the whole display. -/

open Sys2Proof.Laws

namespace Sys2Proof.Machine

/-! ## A cell -/

/-- A cleared cell is never fully on. -/
theorem clearCell_ne_cellOn (b : Byte) : clearCell b ≠ cellOn := by
  by_cases h : b = cellOn
  · rw [clearCell, if_pos h]
    decide
  · rwa [clearCell, if_neg h]

/-- A cleared cell is not fully on, so a second clear leaves it. -/
@[simp] theorem clearCell_clearCell (b : Byte) : clearCell (clearCell b) = clearCell b :=
  if_neg (clearCell_ne_cellOn b)

/-! ## The display -/

/-- A function applied to every cell of the display acts on each cell by itself. -/
theorem State.cell_setDisp_mapCells (s : State) (f : Byte → Byte) (x : Fin 64) (y : Fin 32) :
    (s.setDisp (Display.mapCells f s.disp)).cell x y = f (s.cell x y) :=
  Display.cell_mapCells f s.disp x y

/-- A new display changes nothing but cells. -/
theorem frame_setDisp (s : State) (d : Display) : Frame (fun p => ∃ x y, p = .cell x y) s (s.setDisp d) :=
  fun p hp => State.read_setDisp s d p fun x y h => hp ⟨x, y, h⟩

/-- Two clears of the display are one. -/
theorem mapCells_clearCell_idem (d : Display) :
    Display.mapCells clearCell (Display.mapCells clearCell d) = Display.mapCells clearCell d :=
  Display.ext_cell fun x y => by simp [Display.cell_mapCells]

/-- Where 00E0 leaves no cell to turn off, it completes in the state it started in. -/
theorem exec_cls_of_mapCells_eq {s : State} (h : Display.mapCells clearCell s.disp = s.disp) :
    exec .cls s = .next s := by
  rw [exec, execCls, h]
  rfl

/-- Settles O47: each cell of the new display is the cleared cell of the old one, and clearing a cell twice is clearing
it once. -/
theorem clearMarksOnCells : Obligations.ClearMarksOnCells := by
  refine ⟨decodeWord_encode (i := .cls) rfl, fun s =>
    ⟨s.setDisp (Display.mapCells clearCell s.disp), rfl, State.cell_setDisp_mapCells s clearCell, fun x y => ?_,
      frame_setDisp s _, exec_cls_of_mapCells_eq (mapCells_clearCell_idem s.disp)⟩⟩
  rw [State.cell_setDisp_mapCells]
  exact clearCell_ne_cellOn _

end Sys2Proof.Machine
end

section
/-! The keypad and the timers (45_keypad_timers.md R142, R150, R152): the wait for a key, the new snapshot, the tick. -/

open Sys2Proof.Laws

namespace Sys2Proof.Machine

/-! ## The lowest pressed key -/

/-- The registers in the order of the search are the indices in increasing order. -/
theorem allRegs_eq_finRange : allRegs = List.finRange 16 := by decide

/-- The search of the keypad is the search for the least index whose bit is set. -/
theorem firstPressed_eq_find? (s : State) : firstPressed s = Fin.find? s.pressed := by
  rw [firstPressed, allRegs_eq_finRange, Fin.find?_eq_find?_finRange]

theorem firstPressed_eq_some_iff {s : State} {k : Reg} :
    firstPressed s = some k ↔ s.pressed k = true ∧ ∀ j, j < k → s.pressed j = false := by
  rw [firstPressed_eq_find?, Fin.find?_eq_some_iff]

theorem firstPressed_eq_none_iff {s : State} : firstPressed s = none ↔ ∀ k, s.pressed k = false := by
  rw [firstPressed_eq_find?, Fin.find?_eq_none_iff]

/-- A key number fits in a byte. -/
@[simp] theorem toNat_keyByte (k : Reg) : (keyByte k).toNat = k.val := by
  have hk := k.isLt
  rw [keyByte, BitVec.toNat_ofNat, Nat.mod_eq_of_lt (by omega)]

/-! ## The wait for a key -/

/-- A write to a register leaves every other piece alone. -/
theorem frame_setReg (s : State) (x : Reg) (b : Byte) : Frame (fun p => p = .reg x) s (s.setReg x b) :=
  fun p hp => (State.read_setReg s x b p).trans (if_neg hp)

/-- A wait with a key pressed stores the key's number (R142). -/
theorem exec_ldVxK_of_firstPressed_some {s : State} {k : Reg} (x : Reg) (h : firstPressed s = some k) :
    exec (.ldVxK x) s = .next (s.setReg x (keyByte k)) := by
  simp only [exec, execLdVxK, h]

/-- A wait with no key pressed completes with `pc` back on the same instruction (R142). -/
theorem exec_ldVxK_of_firstPressed_none {s : State} (x : Reg) (h : firstPressed s = none) :
    exec (.ldVxK x) s = .next s.rewind := by
  simp only [exec, execLdVxK, h]

/-- Settles O52: the search finds the lowest pressed key, or none, and each outcome is one write: of the key's number to
`Vx`, or of the rewound address to `pc`. -/
theorem waitTakesLowestKey : Obligations.WaitTakesLowestKey := by
  refine fun x s => ⟨decodeWord_encode (i := .ldVxK x) rfl, fun k hk hlowest => ?_, fun hnone => ?_⟩
  · have hfirst : firstPressed s = some k := firstPressed_eq_some_iff.mpr ⟨hk, hlowest⟩
    refine ⟨_, exec_ldVxK_of_firstPressed_some x hfirst, ?_, frame_setReg s x _⟩
    rw [State.reg_setReg, if_pos rfl, toNat_keyByte]
  · have hfirst : firstPressed s = none := firstPressed_eq_none_iff.mpr hnone
    exact ⟨s.rewind, exec_ldVxK_of_firstPressed_none x hfirst, rfl, frame_setPc s _⟩

/-! ## The snapshot of the keypad -/

/-- After a new snapshot every key bit is the snapshot's. -/
@[simp] theorem State.pressed_setKey (s : State) (k : Vector Bool 16) (r : Reg) :
    (s.setKey k).pressed r = k[r.val] := rfl

/-- Settles O17: the operation is one write of the whole snapshot. -/
theorem loadKeysReplacesSnapshot : Obligations.LoadKeysReplacesSnapshot := fun k s =>
  ⟨State.pressed_setKey s k, fun p hp => State.read_setKey s k p fun r hr => hp ⟨r, hr⟩⟩

/-! ## The timers -/

/-- One tick of a timer is the subtraction of numbers, which stops at 0 (R152). -/
theorem toNat_countDown (b : Byte) : (countDown b).toNat = b.toNat - 1 := by
  by_cases h : b = 0
  · rw [countDown, if_pos h, h]
    rfl
  · have hpos : b.toNat ≠ 0 := BitVec.toNat_ne.mp h
    have hlt := b.isLt
    rw [countDown, if_neg h, toNat_sub_byte, show (1 : Byte).toNat = 1 from rfl]
    omega

/-- A tick writes `DT` and `ST` and leaves every other piece alone. -/
theorem frame_tick (s : State) : Frame (fun p => p = .dt ∨ p = .st) s (tick s) := by
  intro p hp
  obtain ⟨hdt, hst⟩ := not_or.mp hp
  rw [tick, State.read_setSt, if_neg hst, State.read_setDt, if_neg hdt]

/-- Settles O18: a tick counts each of the two timers down and is no other write. -/
theorem tickCountsDown : Obligations.TickCountsDown := fun s =>
  ⟨toNat_countDown s.dt, toNat_countDown s.st, frame_tick s⟩

end Sys2Proof.Machine
end

section
/-! Encoding and decoding are inverse to each other, and the words that decode to nothing (30_encoding.md sections 1 to
4). -/

namespace Sys2Proof.Laws

/-- Settles O1: `decodeWord_encode` says it, form by form. -/
theorem decodeInvertsEncode : Obligations.DecodeInvertsEncode := fun _ => decodeWord_encode

/-! ## A decoded instruction is well-formed -/

/-- The row count of a draw reaches its word modulo 16 only. -/
theorem encode_drw_mod (x y : Reg) (n : Nat) : encode (.drw x y (n % 16)) = encode (.drw x y n) :=
  congrArg (formXYN 0xD x y) (BitVec.eq_of_toNat_eq (by simp))

/-- What a word decodes to is well-formed: a draw's count is the one its own word gives back, so it is below 16. -/
theorem wellFormed_of_decodeWord {w : Word} {i : Instr} (h : decodeWord w = some i) : WellFormed i = true := by
  cases i with
  | drw x y n =>
    have hmod : n % 16 ≤ 15 := Nat.le_of_lt_succ (Nat.mod_lt n (by decide))
    have hword : decodeWord w = some (.drw x y (n % 16)) := by
      rw [← encode_of_decodeWord h, ← encode_drw_mod]
      exact decodeWord_encode (decide_eq_true hmod)
    have hn : n = n % 16 := by
      injection h.symm.trans hword with hdrw
      injection hdrw
    exact decide_eq_true (hn ▸ hmod)
  | _ => rfl

/-- Settles O2: `encode_of_decodeWord` gives the word back, and well-formedness follows from it. -/
theorem encodeInvertsDecode : Obligations.EncodeInvertsDecode := fun _ _ h =>
  ⟨wellFormed_of_decodeWord h, encode_of_decodeWord h⟩

/-! ## The words that decode to nothing, type by type -/

theorem decodeType0_eq_none_iff (w : Word) : decodeType0 w = none ↔ w ≠ 0x00E0 ∧ w ≠ 0x00EE := by
  unfold decodeType0
  split_ifs <;> simp_all

theorem decodeType8_eq_none_iff (w : Word) :
    decodeType8 w = none ↔ nField w ∈ ([0x8, 0x9, 0xA, 0xB, 0xC, 0xD, 0xF] : List (BitVec 4)) := by
  have hlt := (nField w).isLt
  simp only [List.mem_cons, List.not_mem_nil, or_false, ← BitVec.toNat_inj]
  unfold decodeType8
  split <;> simp_all
  omega

theorem decodeTypeE_eq_none_iff (w : Word) : decodeTypeE w = none ↔ nnField w ∉ ([0x9E, 0xA1] : List Byte) := by
  simp only [List.mem_cons, List.not_mem_nil, or_false, ← BitVec.toNat_inj]
  unfold decodeTypeE
  split <;> simp_all

theorem decodeTypeF_eq_none_iff (w : Word) : decodeTypeF w = none ↔
    nnField w ∉ ([0x07, 0x0A, 0x15, 0x18, 0x1E, 0x29, 0x33, 0x55, 0x65] : List Byte) := by
  simp only [List.mem_cons, List.not_mem_nil, or_false, ← BitVec.toNat_inj]
  unfold decodeTypeF
  split <;> simp_all

/-- Settles O4: the decoder branches on the type, and the types not listed always decode. -/
theorem unknownWordsByType : Obligations.UnknownWordsByType := by
  intro w
  have hlt := (typeField w).isLt
  rw [← decodeType0_eq_none_iff, ← decodeType8_eq_none_iff, ← decodeTypeE_eq_none_iff, ← decodeTypeF_eq_none_iff]
  simp only [← BitVec.toNat_inj (x := typeField w)]
  unfold decodeWord
  split
  case h_16 =>
    have ht : (typeField w).toNat = 15 := by
      simp only [imp_false] at *
      omega
    simp [ht]
  all_goals simp_all

/-- Settles O5: the decoder runs on each of the eight words. -/
theorem handWrittenWordsDecode : Obligations.HandWrittenWordsDecode := by
  unfold Obligations.HandWrittenWordsDecode
  decide

/-! ## Bytes and words -/

/-- The two bytes of a word, high byte first, are the word. -/
theorem wordOfBytes_extract (w : Word) : wordOfBytes (w.extractLsb' 8 8) (w.extractLsb' 0 8) = w :=
  (BitVec.extractLsb'_append_extractLsb'_eq_extractLsb' rfl).trans BitVec.extractLsb'_eq_self

/-- A word of two bytes as a number: the first byte has the weight 256. -/
theorem toNat_wordOfBytes (hi lo : Byte) : (wordOfBytes hi lo).toNat = 256 * hi.toNat + lo.toNat := by
  rw [wordOfBytes, BitVec.toNat_append, Nat.shiftLeft_eq, Nat.mul_comm]
  exact (Nat.two_pow_add_eq_or_of_lt lo.isLt hi.toNat).symm

/-- The byte decoder on the bytes of a word that decodes. -/
theorem decodeBytes_of_decodeWord {w : Word} {i : Instr} (h : decodeWord w = some i) (rest : List Byte) :
    decodeBytes (bytesOfWord w ++ rest) = .ok (i, rest) := by
  simp only [bytesOfWord, List.cons_append, List.nil_append, decodeBytes, wordOfBytes_extract, h]

end Sys2Proof.Laws

namespace Sys2Proof.Machine

open Sys2Proof.Laws

/-- A fetch that succeeds reads at or below `0xFFE`, the byte at `pc` high (40_cycle.md R81). -/
theorem fetchWord_some {s : State} {w : Word} (h : fetchWord s = some w) :
    s.pc.toNat ≤ 0xFFE ∧ w = wordOfBytes (s.byte s.pc.toNat) (s.byte (s.pc.toNat + 1)) := by
  obtain ⟨-, hnone⟩ | ⟨hpc, hsome⟩ := fetchWord_spec s
  · cases hnone.symm.trans h
  · exact ⟨hpc, Option.some.inj (h.symm.trans hsome)⟩

/-- A fetch at or below `0xFFE` succeeds. -/
theorem fetchWord_of_le {s : State} (h : s.pc.toNat ≤ 0xFFE) :
    fetchWord s = some (wordOfBytes (s.byte s.pc.toNat) (s.byte (s.pc.toNat + 1))) := by
  obtain ⟨hpc, -⟩ | ⟨-, hsome⟩ := fetchWord_spec s
  · omega
  · exact hsome

/-- A fetch above `0xFFE` fails. -/
theorem fetchWord_of_ge {s : State} (h : 0xFFF ≤ s.pc.toNat) : fetchWord s = none := by
  obtain ⟨-, hnone⟩ | ⟨hpc, -⟩ := fetchWord_spec s
  · exact hnone
  · omega

/-- Settles O6: the bytes of a word put together again are the word, and a word's high byte has the weight 256. -/
theorem bytesAreHighByteFirst : Obligations.BytesAreHighByteFirst := by
  refine ⟨fun i rest hi => decodeBytes_of_decodeWord (decodeWord_encode hi) rest, fun s w hw => ?_⟩
  obtain ⟨-, rfl⟩ := fetchWord_some hw
  exact toNat_wordOfBytes _ _

/-! ## The step by its three outcomes -/

/-- A step whose fetch fails. -/
theorem step_of_fetch_none {s : State} (h : fetchWord s = none) : step s = .fault (.outOfBounds s.pc) := by
  simp only [step, cycle, finishCycle, h, raise]

/-- A step whose word is unknown. -/
theorem step_of_decode_none {s : State} {w : Word} (hw : fetchWord s = some w) (hd : decodeWord w = none) :
    step s = .fault (.unknownOpcode (s.pc + 2)) := by
  simp only [step, cycle, finishCycle, hw, hd, raise, State.advance, State.setPc_pc]

/-- A step whose word decodes is the meaning of the instruction, from the advanced `pc`. -/
theorem step_of_decode_some {s : State} {w : Word} {i : Instr} (hw : fetchWord s = some w)
    (hd : decodeWord w = some i) : step s = exec i s.advance := by
  simp only [step, cycle, finishCycle, hw, hd]

/-- A step that goes on executed an instruction, from a `pc` at or below `0xFFE`. -/
theorem exec_of_step_next {s t : State} (h : step s = .next t) :
    ∃ i, s.pc.toNat ≤ 0xFFE ∧ nextInstr s = some i ∧ exec i s.advance = .next t := by
  obtain ⟨-, hs⟩ | ⟨w, -, -, hs⟩ | ⟨w, i, hw, hd, hs⟩ := step_spec s
  · cases hs.symm.trans h
  · cases hs.symm.trans h
  · exact ⟨i, (fetchWord_some hw).1, by simp only [nextInstr, hw, hd], hs.symm.trans h⟩

/-- Settles O7: a fetch at or below `0xFFE` gives the word of the two bytes. -/
theorem stepRunsDecodedInstruction : Obligations.StepRunsDecodedInstruction := fun _ _ hpc hd =>
  step_of_decode_some (fetchWord_of_le hpc) hd

/-- Settles O8: from `0xFFF` upward nothing is fetched. -/
theorem fetchPastMemoryFails : Obligations.FetchPastMemoryFails := fun _ hpc =>
  step_of_fetch_none (fetchWord_of_ge hpc)

/-- Settles O9: the word is fetched and decodes to nothing. -/
theorem unknownWordFails : Obligations.UnknownWordFails := fun _ hpc hd =>
  step_of_decode_none (fetchWord_of_le hpc) hd

/-! ## Steps that change nothing -/

@[simp] theorem State.advance_pc (s : State) : s.advance.pc = s.pc + 2 := rfl
@[simp] theorem State.advance_sp (s : State) : s.advance.sp = s.sp := rfl
@[simp] theorem State.advance_i (s : State) : s.advance.i = s.i := rfl

/-- A write of `pc` over the advanced one that puts the old value back. -/
theorem advance_setPc_self (s : State) : s.advance.setPc s.pc = s := rfl

/-- A rewind undoes an advance (45_keypad_timers.md R142). -/
theorem rewind_advance (s : State) : s.advance.rewind = s := by
  rw [State.rewind, State.advance_pc, add_sub_cancel_right, advance_setPc_self]

/-- Settles O10: the jump's target is the old `pc`, and the rewind of the wait goes back to it. -/
theorem idleStepsChangeNothing : Obligations.IdleStepsChangeNothing := by
  refine ⟨fun s nnn hw hpc => ?_, fun s x hw hkeys => ?_⟩
  · have htarget : addrOf nnn = s.pc := BitVec.eq_of_toNat_eq ((toNat_addrOf nnn).trans hpc)
    rw [step_of_decode_some hw (decodeWord_encode (i := .jp nnn) rfl), exec, execJp, htarget, advance_setPc_self]
  · have hnone : firstPressed s.advance = none := firstPressed_eq_none_iff.mpr hkeys
    rw [step_of_decode_some hw (decodeWord_encode (i := .ldVxK x) rfl), exec_ldVxK_of_firstPressed_none x hnone,
      rewind_advance]

end Sys2Proof.Machine
end

section
/-! What the 34 instructions write and when they fail (10_state.md section 13, 60_exceptions.md section 1). -/

open Sys2Proof.Laws

namespace Sys2Proof.Machine

/-! ## Frames -/

/-- A frame may name more pieces than are written. -/
theorem Frame.mono {v w : Piece → Prop} {s t : State} (h : Frame v s t) (hvw : ∀ p, v p → w p) : Frame w s t :=
  fun p hp => h p fun hv => hp (hvw p hv)

theorem Frame.trans {w : Piece → Prop} {s t u : State} (hst : Frame w s t) (htu : Frame w t u) : Frame w s u :=
  fun p hp => (htu p hp).trans (hst p hp)

theorem Frame.reg {w : Piece → Prop} {s t : State} (h : Frame w s t) {r : Reg} (hr : ¬ w (.reg r)) :
    t.reg r = s.reg r := BitVec.eq_of_toNat_eq (h _ hr)

theorem Frame.pc {w : Piece → Prop} {s t : State} (h : Frame w s t) (hpc : ¬ w .pc) : t.pc = s.pc :=
  BitVec.eq_of_toNat_eq (h _ hpc)

theorem Frame.sp {w : Piece → Prop} {s t : State} (h : Frame w s t) (hsp : ¬ w .sp) : t.sp.val = s.sp.val := h _ hsp

theorem Frame.entry {w : Piece → Prop} {s t : State} (h : Frame w s t) {k : Fin 16} (hk : ¬ w (.entry k)) :
    t.entry k = s.entry k := BitVec.eq_of_toNat_eq (h _ hk)

theorem Frame.cell {w : Piece → Prop} {s t : State} (h : Frame w s t) {x : Fin 64} {y : Fin 32}
    (hxy : ¬ w (.cell x y)) : t.cell x y = s.cell x y := BitVec.eq_of_toNat_eq (h _ hxy)

/-! ## The frames of the updates -/

theorem frame_skipIf (s : State) (c : Bool) : Frame (fun p => p = .pc) s (s.skipIf c) := by
  cases c
  · exact fun _ _ => rfl
  · exact frame_setPc s _

theorem frame_setDt (s : State) (b : Byte) : Frame (fun p => p = .dt) s (s.setDt b) :=
  fun p hp => (State.read_setDt s b p).trans (if_neg hp)

theorem frame_setSt (s : State) (b : Byte) : Frame (fun p => p = .st) s (s.setSt b) :=
  fun p hp => (State.read_setSt s b p).trans (if_neg hp)

/-- A draw of a random byte into a register moves the counter too. -/
theorem frame_drawn_setReg (s : State) (x : Reg) (b : Byte) :
    Frame (fun p => p = .reg x ∨ p = .draws) s (s.drawn.setReg x b) := by
  intro p hp
  obtain ⟨hreg, hdraws⟩ := not_or.mp hp
  rw [State.read_setReg, if_neg hreg, State.read_drawn, if_neg hdraws]

/-- A block of stored bytes changes the bytes it covers alone. -/
theorem frame_setBytes (s : State) (a : Nat) (bs : List Byte) :
    Frame (fun p => ∃ k, k < bs.length ∧ p = .byte (a + k)) s (s.setBytes a bs) :=
  fun p hp => State.read_setBytes s a bs p fun c hac hca hpc =>
    hp ⟨c - a, by omega, by rw [Nat.add_sub_cancel' hac]; exact hpc⟩

/-- A load of registers changes those registers alone. -/
theorem frame_loadRegsFrom (regs : List Reg) (a : Nat) (s : State) :
    Frame (fun p => ∃ r ∈ regs, p = .reg r) s (loadRegsFrom a regs s) := by
  induction regs generalizing a s with
  | nil => exact fun _ _ => rfl
  | cons r rest ih =>
    have hhead := (frame_setReg s r (s.byte a)).mono (w := fun p => ∃ q ∈ r :: rest, p = .reg q)
      fun p hp => ⟨r, List.mem_cons_self, hp⟩
    have htail := (ih (a + 1) (s.setReg r (s.byte a))).mono (w := fun p => ∃ q ∈ r :: rest, p = .reg q)
      fun p ⟨q, hq, hp⟩ => ⟨q, List.mem_cons_of_mem r hq, hp⟩
    exact hhead.trans htail

/-- A draw's new display and flag change cells and `VF` alone. -/
theorem frame_setDisp_setReg_vf (s : State) (d : Display) (b : Byte) :
    Frame (fun p => p = .reg vf ∨ ∃ x y, p = .cell x y) s ((s.setDisp d).setReg vf b) :=
  ((frame_setDisp s d).mono fun _ => .inr).trans ((frame_setReg _ vf b).mono fun _ => .inl)

/-! ## The registers up to `Vx` -/

theorem regsUpTo_eq_take : ∀ x : Reg, regsUpTo x = (List.finRange 16).take (x.val + 1) := by decide

@[simp] theorem length_regsUpTo (x : Reg) : (regsUpTo x).length = x.val + 1 := by
  rw [regsUpTo_eq_take, List.length_take, List.length_finRange]
  omega

/-- `V0` to `Vx` stand in the list at their own numbers. -/
@[simp] theorem getElem_regsUpTo (x : Reg) (k : Nat) (h : k < (regsUpTo x).length) :
    (regsUpTo x)[k].val = k := by
  simp [regsUpTo_eq_take]

theorem nodup_regsUpTo (x : Reg) : (regsUpTo x).Nodup := by
  rw [regsUpTo_eq_take]
  exact (List.nodup_finRange 16).take

theorem mem_regsUpTo {x r : Reg} : r ∈ regsUpTo x ↔ r ≤ x := by
  rw [regsUpTo, allRegs_eq_finRange, List.mem_filter]
  simp

/-! ## The range-checked instructions -/

theorem exec_ldB (x : Reg) (s : State) : exec (.ldB x) s =
    if inRange (effAddr s 0) 3 then .next (s.setBytes (effAddr s 0) (bcdDigits (s.reg x)))
    else raise .outOfBounds s := rfl

theorem exec_storeRegs (x : Reg) (s : State) : exec (.storeRegs x) s =
    if inRange (effAddr s 0) (x.val + 1) then .next (s.setBytes (effAddr s 0) ((regsUpTo x).map s.reg))
    else raise .outOfBounds s := rfl

theorem exec_loadRegs (x : Reg) (s : State) : exec (.loadRegs x) s =
    if inRange (effAddr s 0) (x.val + 1) then .next (loadRegsFrom (effAddr s 0) (regsUpTo x) s)
    else raise .outOfBounds s := rfl

/-- The canvas a draw leaves. -/
def drawnCanvas (s : State) (x y : Reg) (n : Nat) : Canvas :=
  drawRows (startX s x) (startY s y) (Memory.getBytes s.mem (effAddr s 0) n) { disp := s.disp, flag := 0 }

theorem exec_drw (x y : Reg) (n : Nat) (s : State) : exec (.drw x y n) s =
    if inRange (effAddr s 0) n then
      .next ((s.setDisp (drawnCanvas s x y n).disp).setReg vf (drawnCanvas s x y n).flag)
    else raise .outOfBounds s := rfl

/-- A checked instruction that goes on passed its check. -/
theorem of_checked_eq_next {P : Prop} [Decidable P] {kind : Word → Fault} {s t u : State}
    (h : (if P then .next u else raise kind s : Answer) = .next t) : P ∧ t = u := by
  split_ifs at h with hP
  · injection h with hut
    exact ⟨hP, hut.symm⟩
  · cases h

/-! ## Call and return -/

theorem exec_call_of_push_some {s u : State} (nnn : Addr12) (h : push s.pc s = some u) :
    exec (.call nnn) s = .next (u.setPc (addrOf nnn)) := by
  simp [exec, execCall, h]

theorem exec_call_of_push_none {s : State} (nnn : Addr12) (h : push s.pc s = none) :
    exec (.call nnn) s = .fault (.stackOverflow s.pc) := by
  simp [exec, execCall, h, raise]

/-- A call that goes on is a push and a write to `pc`. -/
theorem exec_call_eq_next {nnn : Addr12} {s t : State} (h : exec (.call nnn) s = .next t) :
    ∃ u, push s.pc s = some u ∧ t = u.setPc (addrOf nnn) := by
  cases hpush : push s.pc s with
  | none => cases (exec_call_of_push_none nnn hpush).symm.trans h
  | some u =>
    cases (exec_call_of_push_some nnn hpush).symm.trans h
    exact ⟨u, rfl, rfl⟩

/-- A return that goes on is a pop and a write to `pc`. -/
theorem exec_ret_eq_next {s t : State} (h : exec .ret s = .next t) : ∃ a u, pop s = some (a, u) ∧ t = u.setPc a := by
  cases hpop : pop s with
  | none => cases (exec_ret_of_pop_none hpop).symm.trans h
  | some au =>
    cases (exec_ret_of_pop_some hpop).symm.trans h
    exact ⟨au.1, au.2, rfl, rfl⟩

/-- A call that goes on: the return address on top, the depth one more, `pc` at the target, and nothing else. -/
theorem exec_call_next {nnn : Addr12} {s t : State} (h : exec (.call nnn) s = .next t) :
    ∃ j : Fin 16, j.val = s.sp.val ∧ t.sp.val = j.val + 1 ∧ t.entry j = s.pc ∧ t.pc = addrOf nnn ∧
      Frame (fun p => p = .pc ∨ p = .sp ∨ p = .entry j) s t := by
  obtain ⟨u, hpush, rfl⟩ := exec_call_eq_next h
  obtain ⟨j, hj, hsp, hentry, hframe⟩ := push_some hpush
  exact ⟨j, hj, hsp, hentry, rfl, (hframe.mono fun _ => .inr).trans ((frame_setPc u _).mono fun _ => .inl)⟩

/-- A return that goes on: `pc` at the former top, the depth one less, and nothing else. -/
theorem exec_ret_next {s t : State} (h : exec .ret s = .next t) :
    ∃ k : Fin 16, k.val + 1 = s.sp.val ∧ t.pc = s.entry k ∧ t.sp.val = k.val ∧
      Frame (fun p => p = .pc ∨ p = .sp) s t := by
  obtain ⟨a, u, hpop, rfl⟩ := exec_ret_eq_next h
  obtain ⟨k, hk, rfl, hsp, hframe⟩ := pop_some hpop
  exact ⟨k, hk, rfl, hsp, (hframe.mono fun _ => .inr).trans ((frame_setPc u _).mono fun _ => .inl)⟩

/-! ## The key skips and the key wait -/

theorem exec_skp_of_keyOf_some {s : State} {x k : Reg} (h : keyOf (s.reg x) = some k) :
    exec (.skp x) s = .next (s.skipIf (s.pressed k)) := by
  simp only [exec, execSkp, h]

theorem exec_sknp_of_keyOf_some {s : State} {x k : Reg} (h : keyOf (s.reg x) = some k) :
    exec (.sknp x) s = .next (s.skipIf (!s.pressed k)) := by
  simp only [exec, execSknp, h]

theorem exec_skp_of_keyOf_none {s : State} {x : Reg} (h : keyOf (s.reg x) = none) :
    exec (.skp x) s = .fault (.keyIndexOutOfRange s.pc) := by
  simp only [exec, execSkp, h, raise]

theorem exec_sknp_of_keyOf_none {s : State} {x : Reg} (h : keyOf (s.reg x) = none) :
    exec (.sknp x) s = .fault (.keyIndexOutOfRange s.pc) := by
  simp only [exec, execSknp, h, raise]

/-- A key skip that goes on is a skip. -/
theorem exec_skp_next {x : Reg} {s t : State} (h : exec (.skp x) s = .next t) : ∃ c, t = s.skipIf c := by
  cases hk : keyOf (s.reg x) with
  | none => cases (exec_skp_of_keyOf_none hk).symm.trans h
  | some k =>
    cases (exec_skp_of_keyOf_some hk).symm.trans h
    exact ⟨_, rfl⟩

theorem exec_sknp_next {x : Reg} {s t : State} (h : exec (.sknp x) s = .next t) : ∃ c, t = s.skipIf c := by
  cases hk : keyOf (s.reg x) with
  | none => cases (exec_sknp_of_keyOf_none hk).symm.trans h
  | some k =>
    cases (exec_sknp_of_keyOf_some hk).symm.trans h
    exact ⟨_, rfl⟩

/-- A key wait stores a key's number or rewinds `pc`. -/
theorem exec_ldVxK_next {x : Reg} {s t : State} (h : exec (.ldVxK x) s = .next t) :
    (∃ k, t = s.setReg x (keyByte k)) ∨ t = s.rewind := by
  cases hkey : firstPressed s with
  | none =>
    cases (exec_ldVxK_of_firstPressed_none x hkey).symm.trans h
    exact .inr rfl
  | some k =>
    cases (exec_ldVxK_of_firstPressed_some x hkey).symm.trans h
    exact .inl ⟨k, rfl⟩

/-- A byte names a key exactly when it is at most 15 (45_keypad_timers.md R151). -/
theorem keyOf_eq_some_iff {b : Byte} {k : Reg} : keyOf b = some k ↔ b.toNat = k.val := by
  obtain ⟨j, hj, hsome⟩ | ⟨hb, hnone⟩ := keyOf_spec b
  · rw [hsome, Option.some.injEq, ← hj, Fin.ext_iff]
  · have hk := k.isLt
    simp only [hnone, reduceCtorEq, false_iff]
    omega

theorem keyOf_eq_none_iff {b : Byte} : keyOf b = none ↔ 15 < b.toNat := by
  obtain ⟨j, hj, hsome⟩ | ⟨hb, hnone⟩ := keyOf_spec b
  · have := j.isLt
    simp only [hsome, reduceCtorEq, false_iff]
    omega
  · simp only [hnone, hb]

/-! ## When an instruction fails -/

/-- An answer is the one the failure table gives: a next state, or a fault of the kind it names at the present `pc`. -/
def AnswersAs (failure : Option Result) (s : State) (a : Answer) : Prop :=
  match failure with
  | none => ∃ t, a = .next t
  | some r => ∃ f, a = .fault f ∧ faultResult f = r ∧ faultPc f = s.pc

/-- A range check that is the negation of the table's condition. -/
theorem answersAs_of_check {P Q : Prop} [Decidable P] [Decidable Q] {s u : State} {a : Answer}
    (ha : a = if P then .next u else raise .outOfBounds s) (hPQ : P ↔ ¬ Q) :
    AnswersAs (if Q then some .outOfBounds else none) s a := by
  subst ha
  by_cases hQ : Q
  · rw [if_pos hQ, if_neg (fun hP => hPQ.mp hP hQ)]
    exact ⟨_, rfl, rfl, rfl⟩
  · rw [if_neg hQ, if_pos (hPQ.mpr hQ)]
    exact ⟨u, rfl⟩

/-- The range of `count + 1` bytes from `I` upward lies in memory. -/
theorem inRange_succ_iff (s : State) (count : Nat) :
    inRange (effAddr s 0) (count + 1) ↔ s.i.toNat + count ≤ 0xFFF := by
  rw [inRange_iff, effAddr]
  omega

/-- The rows of a draw lie in memory, or there are none. -/
theorem inRange_rows_iff (s : State) (n : Nat) :
    inRange (effAddr s 0) n ↔ n = 0 ∨ s.i.toNat + n - 1 ≤ 0xFFF := by
  rw [inRange_iff, effAddr]
  omega

/-- The two key skips fail together. -/
theorem answersAs_of_key {x : Reg} {s : State} {a : Answer}
    (hsome : ∀ k, keyOf (s.reg x) = some k → ∃ t, a = .next t)
    (hnone : keyOf (s.reg x) = none → a = .fault (.keyIndexOutOfRange s.pc)) :
    AnswersAs (if (s.reg x).toNat > 15 then some .keyIndexOutOfRange else none) s a := by
  cases hk : keyOf (s.reg x) with
  | none =>
    rw [if_pos (keyOf_eq_none_iff.mp hk), hnone hk]
    exact ⟨_, rfl, rfl, rfl⟩
  | some k =>
    have := keyOf_eq_some_iff.mp hk
    rw [if_neg (by omega)]
    exact hsome k hk

theorem exec_ret_answersAs (s : State) : AnswersAs (failureOf .ret s) s (exec .ret s) := by
  rw [failureOf]
  cases hpop : pop s with
  | none =>
    rw [if_pos ((pop_eq_none_iff s).mp hpop), exec_ret_of_pop_none hpop]
    exact ⟨_, rfl, rfl, rfl⟩
  | some au =>
    rw [if_neg fun hsp => by simp [(pop_eq_none_iff s).mpr hsp] at hpop]
    exact ⟨_, exec_ret_of_pop_some hpop⟩

theorem exec_call_answersAs (nnn : Addr12) (s : State) :
    AnswersAs (failureOf (.call nnn) s) s (exec (.call nnn) s) := by
  rw [failureOf]
  cases hpush : push s.pc s with
  | none =>
    rw [if_pos ((push_eq_none_iff _ s).mp hpush), exec_call_of_push_none nnn hpush]
    exact ⟨_, rfl, rfl, rfl⟩
  | some u =>
    rw [if_neg fun hsp => by simp [(push_eq_none_iff s.pc s).mpr hsp] at hpush]
    exact ⟨_, exec_call_of_push_some nnn hpush⟩

/-- Every instruction answers as the failure table says: eight are checked, the others always complete. -/
theorem exec_answersAs (i : Instr) (s : State) : AnswersAs (failureOf i s) s (exec i s) := by
  cases i with
  | ret => exact exec_ret_answersAs s
  | call nnn => exact exec_call_answersAs nnn s
  | ldB x => exact answersAs_of_check (exec_ldB x s) ((inRange_succ_iff s 2).trans not_lt.symm)
  | storeRegs x => exact answersAs_of_check (exec_storeRegs x s) ((inRange_succ_iff s x).trans not_lt.symm)
  | loadRegs x => exact answersAs_of_check (exec_loadRegs x s) ((inRange_succ_iff s x).trans not_lt.symm)
  | drw x y n =>
    refine answersAs_of_check (exec_drw x y n s) ((inRange_rows_iff s n).trans ?_)
    omega
  | skp x => exact answersAs_of_key (fun k hk => ⟨_, exec_skp_of_keyOf_some hk⟩) exec_skp_of_keyOf_none
  | sknp x => exact answersAs_of_key (fun k hk => ⟨_, exec_sknp_of_keyOf_some hk⟩) exec_sknp_of_keyOf_none
  | ldVxK x =>
    cases hkey : firstPressed s with
    | none => exact ⟨_, exec_ldVxK_of_firstPressed_none x hkey⟩
    | some k => exact ⟨_, exec_ldVxK_of_firstPressed_some x hkey⟩
  | _ => exact ⟨_, rfl⟩

/-- Settles O11: `exec_answersAs`, read for each outcome of the failure table. -/
theorem completesUnlessTableFails : Obligations.CompletesUnlessTableFails := by
  intro i s
  have h := exec_answersAs i s
  refine ⟨fun hnone => ?_, fun r hr => ?_⟩
  · rwa [hnone] at h
  · rwa [hr] at h

/-- A fault of an instruction reports the `pc` it started with. -/
theorem faultPc_of_exec_fault {i : Instr} {s : State} {f : Fault} (h : exec i s = .fault f) : faultPc f = s.pc := by
  have ha := exec_answersAs i s
  rw [h] at ha
  cases hr : failureOf i s with
  | none =>
    rw [hr] at ha
    obtain ⟨t, ht⟩ := ha
    cases ht
  | some r =>
    rw [hr] at ha
    obtain ⟨g, hg, -, hpc⟩ := ha
    cases hg
    exact hpc

/-- Where a failing step leaves `pc`: at `pc0` after a failed fetch, at `pc0 + 2` after any other failure (R163). -/
theorem faultPc_of_step_fault {s : State} {f : Fault} (h : step s = .fault f) :
    faultPc f = if fetchWord s = none then s.pc else s.pc + 2 := by
  obtain ⟨hw, hs⟩ | ⟨w, hw, -, hs⟩ | ⟨w, i, hw, -, hs⟩ := step_spec s
  · cases hs.symm.trans h
    simp [hw, faultPc]
  · cases hs.symm.trans h
    simp [hw, faultPc]
  · rw [faultPc_of_exec_fault (hs.symm.trans h)]
    simp [hw, State.advance]

/-- The operation of a ready block whose step faults. -/
theorem perform_step_of_fault {b : Block} {f : Fault} (hb : b.phase = .ready) (h : step b.core = .fault f) :
    perform .step b = some
      ({ core := b.core.setPc (faultPc f), phase := .failed (faultResult f) }, .result (faultResult f)) := by
  simp only [perform, hb, if_true, stepOp, cycleIn_memSize, h]

/-- Settles O12: the block keeps its core but for `pc`, and `faultPc_of_step_fault` says where that stands. -/
theorem failingStepMovesOnlyPc : Obligations.FailingStepMovesOnlyPc := fun b _ hb hf =>
  ⟨_, perform_step_of_fault hb hf, rfl, faultPc_of_step_fault hf, frame_setPc b.core _⟩

/-! ## What an instruction writes -/

/-- The stored bytes of an instruction with its address in `I`. -/
theorem frame_setBytes_effAddr (s : State) (bs : List Byte) :
    Frame (fun p => ∃ k, k < bs.length ∧ p = .byte (effAddr s k)) s (s.setBytes (effAddr s 0) bs) :=
  frame_setBytes s (effAddr s 0) bs

/-- An instruction that completes writes only the pieces its row of the access matrix marks. -/
theorem exec_frame {i : Instr} {s t : State} (h : exec i s = .next t) : Frame (writes i s) s t := by
  cases i with
  | cls => cases h; exact frame_setDisp s _
  | ret =>
    obtain ⟨-, -, -, -, hframe⟩ := exec_ret_next h
    exact hframe
  | call nnn =>
    obtain ⟨j, hj, -, -, -, hframe⟩ := exec_call_next h
    exact hframe.mono fun p hp => hp.imp id (Or.imp id fun hentry => ⟨j, hj, hentry⟩)
  | jp | jpV0 => cases h; exact frame_setPc s _
  | seImm | sneImm | seReg | sneReg => cases h; exact frame_skipIf s _
  | ldImm | addImm | ldReg | orReg | andReg | xorReg | ldVxDt => cases h; exact frame_setReg s _ _
  | addReg | sub | shr | subn | shl => cases h; exact State.read_setRegFlag s _ _ _
  | ldI | addI | ldF => cases h; exact frame_setI s _
  | rnd => cases h; exact frame_drawn_setReg s _ _
  | drw x y n =>
    obtain ⟨-, rfl⟩ := of_checked_eq_next ((exec_drw x y n s).symm.trans h)
    exact frame_setDisp_setReg_vf s _ _
  | skp =>
    obtain ⟨c, rfl⟩ := exec_skp_next h
    exact frame_skipIf s c
  | sknp =>
    obtain ⟨c, rfl⟩ := exec_sknp_next h
    exact frame_skipIf s c
  | ldVxK x =>
    obtain ⟨k, rfl⟩ | rfl := exec_ldVxK_next h
    · exact (frame_setReg s x _).mono fun _ => .inl
    · exact (frame_setPc s _).mono fun _ => .inr
  | ldDtVx => cases h; exact frame_setDt s _
  | ldStVx => cases h; exact frame_setSt s _
  | ldB x =>
    obtain ⟨-, rfl⟩ := of_checked_eq_next ((exec_ldB x s).symm.trans h)
    exact frame_setBytes_effAddr s (bcdDigits (s.reg x))
  | storeRegs x =>
    obtain ⟨-, rfl⟩ := of_checked_eq_next ((exec_storeRegs x s).symm.trans h)
    refine (frame_setBytes_effAddr s _).mono fun p ⟨k, hk, hp⟩ => ⟨k, ?_, hp⟩
    simpa [Nat.lt_succ_iff] using hk
  | loadRegs x =>
    obtain ⟨-, rfl⟩ := of_checked_eq_next ((exec_loadRegs x s).symm.trans h)
    exact (frame_loadRegsFrom _ _ s).mono fun p ⟨r, hr, hp⟩ => ⟨r, mem_regsUpTo.mp hr, hp⟩

/-- Settles O13: `exec_frame` says it. -/
theorem instructionsWriteOnlyMatrix : Obligations.InstructionsWriteOnlyMatrix := fun _ _ _ => exec_frame

end Sys2Proof.Machine
end

section
/-! The depth of the call stack and the reach of `pc` (41_flow.md, 10_state.md sections 4 and 5). -/

open Sys2Proof.Laws

namespace Sys2Proof.Machine

/-! ## Calls and returns -/

/-- Settles O26: a call fails where the push fails, and otherwise does what `exec_call_next` says. -/
theorem callPushesReturnAddress : Obligations.CallPushesReturnAddress := by
  refine fun nnn s => ⟨decodeWord_encode (i := .call nnn) rfl, fun hlt => ?_, fun hfull =>
    exec_call_of_push_none nnn ((push_eq_none_iff _ s).mpr hfull)⟩
  obtain ⟨u, hu⟩ := Option.ne_none_iff_exists'.mp (mt (push_eq_none_iff s.pc s).mp hlt.ne)
  have hexec := exec_call_of_push_some nnn hu
  obtain ⟨j, hj, hsp, hentry, hpc, -⟩ := exec_call_next hexec
  refine ⟨_, hexec, by rw [hpc, toNat_addrOf], by rw [hsp, hj], fun k hk => ?_, exec_frame hexec⟩
  rwa [Fin.ext (hk.trans hj.symm)]

/-- The entries of a stack are read from the array alone. -/
theorem entry_congr {s t : State} (h : s.stack = t.stack) (k : Fin 16) : s.entry k = t.entry k := by
  rw [State.entry, State.entry, h]

/-- Settles O27: the entry the return pops is the one the call pushed, and neither touches the entries below. -/
theorem callThenReturnRestores : Obligations.CallThenReturnRestores := by
  intro nnn s t u hcall hsp hstack
  obtain ⟨j, hj, htsp, htop, -, hcallFrame⟩ := exec_call_next hcall
  have hdepth : u.sp.val = j.val + 1 := by rw [hsp, htsp]
  obtain ⟨v, hv⟩ : ∃ v, exec .ret u = .next v := by
    obtain ⟨⟨a, w⟩, hpop⟩ := Option.ne_none_iff_exists'.mp (mt (pop_eq_none_iff u).mp (by omega))
    exact ⟨_, exec_ret_of_pop_some hpop⟩
  obtain ⟨k, hk, hpc, hvsp, hretFrame⟩ := exec_ret_next hv
  obtain rfl : k = j := Fin.ext (by omega)
  refine ⟨v, hv, ?_, Fin.ext (hvsp.trans hj), fun m hm => ?_⟩
  · rw [hpc, entry_congr hstack, htop]
  · have hne : m ≠ k := fun h => by subst h; omega
    calc v.entry m = u.entry m := hretFrame.entry (by simp)
      _ = t.entry m := entry_congr hstack m
      _ = s.entry m := hcallFrame.entry (by simp [hne])

/-! ## The depth along a run -/

/-- One instruction: a call adds one to the depth, a return takes one off, any other leaves it. -/
theorem exec_depth {i : Instr} {s t : State} (h : exec i s = .next t) :
    t.sp.val + (isRet i).toNat = s.sp.val + (isCall i).toNat := by
  cases i with
  | call nnn =>
    obtain ⟨j, hj, hsp, -⟩ := exec_call_next h
    simp only [isRet, isCall, Bool.toNat_false, Bool.toNat_true]
    omega
  | ret =>
    obtain ⟨k, hk, -, hsp, -⟩ := exec_ret_next h
    simp only [isRet, isCall, Bool.toNat_false, Bool.toNat_true]
    omega
  | _ => exact (exec_frame h).sp (by simp [writes, regOrFlag])

/-- A run of one more step goes on after that step, on every machine. -/
theorem run_succ_next {M : Host.Core} {k : Nat} {s t : M.State} (h : M.run (k + 1) s = .next t) :
    ∃ u, M.step s = .next u ∧ M.run k u = .next t := by
  rw [Host.Core.run] at h
  split at h
  next u hs => exact ⟨u, hs, h⟩
  all_goals cases h

/-- The count of one more step that goes on. -/
theorem countSteps_succ {test : Instr → Bool} {k : Nat} {s u : State} {i : Instr} (hi : nextInstr s = some i)
    (hs : step s = .next u) : countSteps test (k + 1) s = (test i).toNat + countSteps test k u := by
  simp only [countSteps, hi, hs]

/-- Settles O28: by induction on the number of steps, `exec_depth` for each. -/
theorem depthCountsCallsAndReturns : Obligations.DepthCountsCallsAndReturns := by
  intro k
  induction k with
  | zero =>
    intro s t h
    injection h with hst
    subst hst
    rfl
  | succ k ih =>
    intro s t h
    obtain ⟨u, hs, hrun⟩ := run_succ_next h
    obtain ⟨i, -, hi, hexec⟩ := exec_of_step_next hs
    have hhere := exec_depth hexec
    rw [State.advance_sp] at hhere
    have hrest := ih u t hrun
    rw [countSteps_succ hi hs, countSteps_succ hi hs]
    omega

/-! ## The reach of `pc` -/

/-- Every live entry of the stack is at or below `0x1000`. -/
def LiveEntriesInReach (s : State) : Prop := ∀ k : Fin 16, k.val < s.sp.val → (s.entry k).toNat ≤ 0x1000

/-- A stack left as it was keeps its live entries in reach. -/
theorem LiveEntriesInReach.of_frame {w : Piece → Prop} {s t : State} (h : LiveEntriesInReach s) (hf : Frame w s t)
    (hsp : ¬ w .sp) (hentry : ∀ k, ¬ w (.entry k)) : LiveEntriesInReach t := by
  intro k hk
  rw [hf.sp hsp] at hk
  rw [hf.entry (hentry k)]
  exact h k hk

/-- Below the reach of `pc` an advance does not wrap. -/
theorem toNat_add_two {w : Word} (h : w.toNat ≤ 0x1000) : (w + 2).toNat = w.toNat + 2 := by
  rw [BitVec.toNat_add, show (2 : Word).toNat = 2 from rfl, Nat.mod_eq_of_lt (by omega)]

/-- A skip leaves `pc` in reach. -/
theorem pc_skipIf_le {s : State} (c : Bool) (h : s.pc.toNat ≤ 0x1000) : (s.skipIf c).pc.toNat ≤ 0x10FE := by
  cases c
  · exact h.trans (by decide)
  · change (s.pc + 2).toNat ≤ 0x10FE
    rw [toNat_add_two h]
    omega

/-- A write to `pc` in reach keeps both ranges. -/
theorem PcInReach.of_frame_pc {s t : State} (hs : LiveEntriesInReach s) (hf : Frame (fun p => p = .pc) s t)
    (hpc : t.pc.toNat ≤ 0x10FE) : PcInReach t :=
  ⟨hpc, hs.of_frame hf (by simp) (by simp)⟩

/-- One instruction keeps both ranges, when the advanced `pc` it starts with does not rewind below 0. -/
theorem exec_pcInReach {i : Instr} {s t : State} (hlow : 2 ≤ s.pc.toNat) (hhigh : s.pc.toNat ≤ 0x1000)
    (hs : LiveEntriesInReach s) (h : exec i s = .next t) : PcInReach t := by
  have hframe := exec_frame h
  cases i with
  | ret =>
    obtain ⟨k, hk, hpc, hsp, hf⟩ := exec_ret_next h
    refine ⟨?_, fun m hm => ?_⟩
    · rw [hpc]
      exact (hs k (by omega)).trans (by decide)
    · rw [hf.entry (by simp)]
      exact hs m (by omega)
  | call nnn =>
    obtain ⟨j, hj, hsp, htop, hpc, hf⟩ := exec_call_next h
    refine ⟨?_, fun m hm => ?_⟩
    · have := nnn.isLt
      rw [hpc, toNat_addrOf]
      omega
    · by_cases hmj : m = j
      · rwa [hmj, htop]
      · rw [hf.entry (by simp [hmj])]
        exact hs m (by omega)
  | jp nnn =>
    have := nnn.isLt
    cases h
    refine .of_frame_pc hs hframe ?_
    rw [State.setPc_pc, toNat_addrOf]
    omega
  | jpV0 nnn =>
    cases h
    refine .of_frame_pc hs hframe ?_
    rw [State.setPc_pc, toNat_offsetTarget]
    exact offset_sum_le nnn _
  | seImm | sneImm | seReg | sneReg =>
    cases h
    exact .of_frame_pc hs hframe (pc_skipIf_le _ hhigh)
  | skp =>
    obtain ⟨c, rfl⟩ := exec_skp_next h
    exact .of_frame_pc hs hframe (pc_skipIf_le c hhigh)
  | sknp =>
    obtain ⟨c, rfl⟩ := exec_sknp_next h
    exact .of_frame_pc hs hframe (pc_skipIf_le c hhigh)
  | ldVxK x =>
    refine ⟨?_, hs.of_frame hframe (by simp [writes]) (by simp [writes])⟩
    obtain ⟨k, rfl⟩ | rfl := exec_ldVxK_next h
    · exact hhigh.trans (by decide)
    · change (s.pc - 2).toNat ≤ 0x10FE
      bv_omega
  | _ =>
    refine ⟨?_, hs.of_frame hframe (by simp [writes, regOrFlag]) (by simp [writes, regOrFlag])⟩
    rw [hframe.pc (by simp [writes, regOrFlag])]
    exact hhigh.trans (by decide)

/-- Settles O57: a step that goes on fetched from at most `0xFFE`, so the advanced `pc` is between 2 and `0x1000`. -/
theorem stepKeepsPcInReach : Obligations.StepKeepsPcInReach := by
  intro s t hs h
  obtain ⟨i, hpc, -, hexec⟩ := exec_of_step_next h
  have hadvanced : s.advance.pc.toNat = s.pc.toNat + 2 := by
    rw [State.advance_pc, toNat_add_two (by omega)]
  have hlow : 2 ≤ s.advance.pc.toNat := by omega
  exact exec_pcInReach hlow (by omega) hs.2 hexec

/-! ## Memory stays canonical -/

@[simp] theorem loadRegsFrom_mem (regs : List Reg) (a : Nat) (s : State) : (loadRegsFrom a regs s).mem = s.mem := by
  induction regs generalizing a s with
  | nil => rfl
  | cons r rest ih => exact ih (a + 1) (s.setReg r (s.byte a))

@[simp] theorem State.skipIf_mem (s : State) (c : Bool) : (s.skipIf c).mem = s.mem := by
  cases c <;> rfl

theorem push_mem {a : Word} {s t : State} (h : push a s = some t) : t.mem = s.mem := by
  obtain ⟨-, hnone⟩ | ⟨hlt, hsome⟩ := push_spec a s
  · cases hnone.symm.trans h
  · cases hsome.symm.trans h
    rfl

theorem pop_mem {a : Word} {s t : State} (h : pop s = some (a, t)) : t.mem = s.mem := by
  obtain ⟨-, hnone⟩ | ⟨k, -, hsome⟩ := pop_spec s
  · cases hnone.symm.trans h
  · cases hsome.symm.trans h
    rfl

@[simp] theorem State.setRegFlag_mem (s : State) (x : Reg) (r f : Byte) : (s.setRegFlag x r f).mem = s.mem := by
  unfold State.setRegFlag
  split <;> rfl

/-- What an instruction can do to memory: nothing, or a block of bytes stored inside the Memory Image. -/
theorem exec_mem {i : Instr} {s t : State} (h : exec i s = .next t) :
    t.mem = s.mem ∨ ∃ bs : List Byte, effAddr s 0 + bs.length ≤ 0x1000 ∧
      t.mem = Memory.setBytes s.mem (effAddr s 0) bs := by
  cases i with
  | ldB x =>
    obtain ⟨hrange, rfl⟩ := of_checked_eq_next ((exec_ldB x s).symm.trans h)
    rw [inRange_iff] at hrange
    exact .inr ⟨bcdDigits (s.reg x), by simp only [bcdDigits, List.length_cons, List.length_nil]; omega, rfl⟩
  | storeRegs x =>
    obtain ⟨hrange, rfl⟩ := of_checked_eq_next ((exec_storeRegs x s).symm.trans h)
    rw [inRange_iff] at hrange
    exact .inr ⟨(regsUpTo x).map s.reg, by rw [List.length_map, length_regsUpTo]; omega, rfl⟩
  | loadRegs x =>
    obtain ⟨-, rfl⟩ := of_checked_eq_next ((exec_loadRegs x s).symm.trans h)
    exact .inl (loadRegsFrom_mem _ _ s)
  | drw x y n =>
    obtain ⟨-, rfl⟩ := of_checked_eq_next ((exec_drw x y n s).symm.trans h)
    exact .inl rfl
  | addReg | sub | shr | subn | shl =>
    cases h
    exact .inl (State.setRegFlag_mem s _ _ _)
  | call nnn =>
    obtain ⟨u, hpush, rfl⟩ := exec_call_eq_next h
    exact .inl (show u.mem = s.mem from push_mem hpush)
  | ret =>
    obtain ⟨a, u, hpop, rfl⟩ := exec_ret_eq_next h
    exact .inl (show u.mem = s.mem from pop_mem hpop)
  | seImm | sneImm | seReg | sneReg =>
    cases h
    exact .inl (State.skipIf_mem s _)
  | skp =>
    obtain ⟨c, rfl⟩ := exec_skp_next h
    exact .inl (State.skipIf_mem s c)
  | sknp =>
    obtain ⟨c, rfl⟩ := exec_sknp_next h
    exact .inl (State.skipIf_mem s c)
  | ldVxK =>
    obtain ⟨k, rfl⟩ | rfl := exec_ldVxK_next h <;> exact .inl rfl
  | _ =>
    cases h
    exact .inl rfl

/-- Settles O55: what an instruction stores lies inside the Memory Image, where a write keeps the canonical form. -/
theorem stepKeepsMemoryCanonical : Obligations.StepKeepsMemoryCanonical := by
  intro s t hs h
  obtain ⟨i, -, -, hexec⟩ := exec_of_step_next h
  obtain hmem | ⟨bs, hrange, hmem⟩ := exec_mem hexec
  · rw [hmem]
    exact hs
  · rw [hmem]
    exact Memory.wf_setBytes hs hrange

/-! ## What a host operation does to the core -/

/-- The core after a host operation, from the core before it (40_cycle.md R86). -/
inductive HostMove (table : Font) (s : State) : State → Prop
  | keep : HostMove table s s
  | reset : HostMove table s (resetOp s table)
  | loadRom {t : State} (bytes : List Byte) (h : loadRom bytes s = some t) : HostMove table s t
  | loadKeys (k : Vector Bool 16) : HostMove table s (loadKeys k s)
  | tick : HostMove table s (tick s)
  | step {t : State} (h : step s = .next t) : HostMove table s t
  | fault (pc : Word) : HostMove table s (s.setPc pc)
  | decay : HostMove table s (decay s)

theorem hostMove_stepOp (table : Font) (b : Block) : HostMove table b.core (stepOp b).1.core := by
  unfold stepOp
  rw [cycleIn_memSize]
  cases h : step b.core with
  | next t => exact .step h
  | fault f => exact .fault _
  | refused r => exact .keep

theorem hostMove_loadRomOp (table : Font) (bytes : List Byte) (b : Block) :
    HostMove table b.core (loadRomOp bytes b).1.core := by
  unfold loadRomOp
  cases h : loadRom bytes b.core with
  | none => exact .keep
  | some t => exact .loadRom bytes h

/-- An open operation makes one of these moves. -/
theorem hostMove_of_perform {op : HostOp} {b b' : Block} {r : Reply} {table : Font}
    (h : perform op b memSize table = some (b', r)) : HostMove table b.core b'.core := by
  cases op <;> simp only [perform, Option.ite_none_left_eq_some, Option.ite_none_right_eq_some] at h
  case reset => cases h; exact .reset
  case loadRom bytes =>
    obtain rfl : (loadRomOp bytes b).1 = b' := congrArg Prod.fst (Option.some.inj h.2)
    exact hostMove_loadRomOp table bytes b
  case loadKeys => cases h.2; exact .loadKeys _
  case tick => cases h.2; exact .tick
  case step =>
    obtain rfl : (stepOp b).1 = b' := congrArg Prod.fst (Option.some.inj h.2)
    exact hostMove_stepOp table b
  case decay => cases h.2; exact .decay
  case readCell => cases h.2; exact .keep

/-- A ROM that is loaded fits into the Memory Image and is stored as one block. -/
theorem loadRom_some {bytes : List Byte} {s t : State} (h : loadRom bytes s = some t) :
    romBase + bytes.length ≤ 0x1000 ∧ t = s.setBytes romBase bytes := by
  unfold loadRom at h
  split_ifs at h with hfits
  cases h
  exact ⟨hfits, rfl⟩

/-- Settles O56: a reset leaves a canonical memory, a load of a ROM and a step keep it, and no other operation writes
memory. -/
theorem hostMovesKeepMemoryCanonical : Obligations.HostMovesKeepMemoryCanonical := by
  intro op b b' r table hb h
  have hmove := hostMove_of_perform h
  generalize b'.core = t at hmove ⊢
  cases hmove with
  | reset => exact wf_resetOp b.core table memSize
  | loadRom bytes hload =>
    obtain ⟨hfits, ht⟩ := loadRom_some hload
    rw [ht]
    exact Memory.wf_setBytes hb hfits
  | step hstep => exact stepKeepsMemoryCanonical _ _ hb hstep
  | _ => exact hb

end Sys2Proof.Machine
end

section
/-! A draw seen cell by cell (44_display.md R131, R132), and what it leaves to a program of the fade values (10_state.md
sections 2 and 6). -/

open Sys2Proof.Laws

namespace Sys2Proof.Machine

/-! ## What drawing a set of sprite bits does to a canvas -/

/-- `d` is `c` with the cells of `P` toggled, each once, and the flag set if one of them was on. -/
structure Toggles (P : Fin 64 → Fin 32 → Prop) (c d : Canvas) : Prop where
  inside : ∀ x y, P x y → Display.cell d.disp x y = toggleCell (Display.cell c.disp x y)
  outside : ∀ x y, ¬ P x y → Display.cell d.disp x y = Display.cell c.disp x y
  hit : (∃ x y, P x y ∧ Display.cell c.disp x y = cellOn) → d.flag = 1
  miss : (¬ ∃ x y, P x y ∧ Display.cell c.disp x y = cellOn) → d.flag = c.flag

namespace Toggles

theorem congr {P Q : Fin 64 → Fin 32 → Prop} {c d : Canvas} (h : Toggles P c d) (hPQ : ∀ x y, P x y ↔ Q x y) :
    Toggles Q c d := by
  obtain rfl : P = Q := funext₂ fun x y => propext (hPQ x y)
  exact h

/-- No bits, no change. -/
theorem of_empty {P : Fin 64 → Fin 32 → Prop} (hP : ∀ x y, ¬ P x y) (c : Canvas) : Toggles P c c where
  inside x y h := absurd h (hP x y)
  outside _ _ _ := rfl
  hit := fun ⟨x, y, h, _⟩ => absurd h (hP x y)
  miss _ := rfl

/-- Two sets of bits without a common cell, drawn one after the other: the second finds its cells as they were. -/
theorem union {P Q : Fin 64 → Fin 32 → Prop} {c d e : Canvas} (hcd : Toggles P c d) (hde : Toggles Q d e)
    (hPQ : ∀ x y, P x y → ¬ Q x y) : Toggles (fun x y => P x y ∨ Q x y) c e where
  inside x y h := by
    by_cases hP : P x y
    · rw [hde.outside x y (hPQ x y hP), hcd.inside x y hP]
    · rw [hde.inside x y (h.resolve_left hP), hcd.outside x y hP]
  outside x y h := by
    rw [hde.outside x y fun hQ => h (.inr hQ), hcd.outside x y fun hP => h (.inl hP)]
  hit := by
    rintro ⟨x, y, hP | hQ, hon⟩
    · by_cases hlater : ∃ x y, Q x y ∧ Display.cell d.disp x y = cellOn
      · exact hde.hit hlater
      · rw [hde.miss hlater, hcd.hit ⟨x, y, hP, hon⟩]
    · have hP : ¬ P x y := fun hP => hPQ x y hP hQ
      exact hde.hit ⟨x, y, hQ, by rw [hcd.outside x y hP, hon]⟩
  miss h := by
    rw [hde.miss, hcd.miss]
    · exact fun ⟨x, y, hP, hon⟩ => h ⟨x, y, .inl hP, hon⟩
    · rintro ⟨x, y, hQ, hon⟩
      have hP : ¬ P x y := fun hP => hPQ x y hP hQ
      exact h ⟨x, y, .inr hQ, by rwa [← hcd.outside x y hP]⟩

end Toggles

/-! ## Pixel, row, rows -/

theorem toggles_drawPixel (xx yy : Nat) (c : Canvas) :
    Toggles (fun x y => x.val = xx ∧ y.val = yy) c (drawPixel xx yy c) := by
  obtain ⟨hclipped, hsame⟩ | ⟨x, y, rfl, rfl, hdisp, hflag⟩ := drawPixel_spec xx yy c
  · rw [hsame]
    refine .of_empty (fun x y hxy => ?_) c
    obtain ⟨rfl, rfl⟩ := hxy
    exact hclipped ⟨x.isLt, y.isLt⟩
  · simp only [Fin.val_inj]
    exact
      { inside := fun cx cy h => by rw [hdisp, Display.cell_setCell, if_pos h, h.1, h.2]
        outside := fun cx cy h => by rw [hdisp, Display.cell_setCell, if_neg h]
        hit := fun ⟨cx, cy, h, hon⟩ => by rw [hflag, ← h.1, ← h.2, if_pos hon]
        miss := fun h => by rw [hflag, if_neg fun hon => h ⟨x, y, ⟨rfl, rfl⟩, hon⟩] }

/-- One of the first `k` bits of a sprite row, from bit 7 at column `x0`, is 1 at the cell. -/
def rowBit (x0 yy : Nat) (row : Byte) (k : Nat) (x : Fin 64) (y : Fin 32) : Prop :=
  x0 ≤ x.val ∧ x.val < x0 + k ∧ y.val = yy ∧ row.getLsbD (7 - (x.val - x0)) = true

/-- Bit `k` of a row is drawn where it is 1. -/
theorem toggles_drawBit (x0 yy : Nat) (row : Byte) (k : Nat) (c : Canvas) :
    Toggles (fun x y => (x.val = x0 + k ∧ y.val = yy) ∧ row.getLsbD (7 - k) = true) c
      (if row.getLsbD (7 - k) then drawPixel (x0 + k) yy c else c) := by
  split
  next hbit => exact (toggles_drawPixel (x0 + k) yy c).congr fun x y => by simp [hbit]
  next hbit => exact .of_empty (fun x y h => hbit h.2) c

theorem rowBit_succ_iff (x0 yy : Nat) (row : Byte) (k : Nat) (x : Fin 64) (y : Fin 32) :
    (rowBit x0 yy row k x y ∨ (x.val = x0 + k ∧ y.val = yy) ∧ row.getLsbD (7 - k) = true) ↔
      rowBit x0 yy row (k + 1) x y := by
  unfold rowBit
  by_cases hx : x.val = x0 + k
  · have hk : x.val - x0 = k := by omega
    rw [hk]
    constructor
    · rintro (⟨-, hlt, -⟩ | ⟨⟨-, hy⟩, hbit⟩)
      · omega
      · exact ⟨by omega, by omega, hy, hbit⟩
    · rintro ⟨-, -, hy, hbit⟩
      exact .inr ⟨⟨hx, hy⟩, hbit⟩
  · constructor
    · rintro (⟨hle, hlt, hrest⟩ | ⟨⟨hxk, -⟩, -⟩)
      · exact ⟨hle, by omega, hrest⟩
      · exact absurd hxk hx
    · rintro ⟨hle, hlt, hrest⟩
      exact .inl ⟨hle, by omega, hrest⟩

/-- The loop over the bits of a row, up to bit `k`. -/
theorem toggles_drawBits (x0 yy : Nat) (row : Byte) (k : Nat) (c : Canvas) :
    Toggles (rowBit x0 yy row k) c
      ((List.range k).foldl (fun c b => if row.getLsbD (7 - b) then drawPixel (x0 + b) yy c else c) c) := by
  induction k with
  | zero =>
    refine .of_empty (fun x y h => ?_) c
    obtain ⟨hle, hlt, -⟩ := h
    omega
  | succ k ih =>
    rw [List.range_succ, List.foldl_append]
    refine (ih.union (toggles_drawBit x0 yy row k _) fun x y hbit hnext => ?_).congr (rowBit_succ_iff x0 yy row k)
    obtain ⟨-, hlt, -⟩ := hbit
    obtain ⟨⟨hx, -⟩, -⟩ := hnext
    omega

theorem toggles_drawRow (x0 yy : Nat) (row : Byte) (c : Canvas) :
    Toggles (rowBit x0 yy row 8) c (drawRow x0 yy row c) := toggles_drawBits x0 yy row 8 c

/-- One of the sprite rows, the first at display row `y0`, has a 1 bit at the cell. -/
def rowsBit (x0 y0 : Nat) (rows : List Byte) (x : Fin 64) (y : Fin 32) : Prop :=
  y0 ≤ y.val ∧ y.val < y0 + rows.length ∧ rowBit x0 y.val (rows.getD (y.val - y0) 0) 8 x y

theorem rowsBit_cons_iff (x0 y0 : Nat) (row : Byte) (rest : List Byte) (x : Fin 64) (y : Fin 32) :
    (rowBit x0 y0 row 8 x y ∨ rowsBit x0 (y0 + 1) rest x y) ↔ rowsBit x0 y0 (row :: rest) x y := by
  unfold rowsBit
  rw [List.length_cons]
  by_cases hy : y.val = y0
  · rw [hy, Nat.sub_self, List.getD_cons_zero]
    constructor
    · rintro (hrow | ⟨hle, -⟩)
      · exact ⟨le_rfl, by omega, hrow⟩
      · omega
    · exact fun ⟨_, _, hrow⟩ => .inl hrow
  · constructor
    · rintro (⟨-, -, heq, -⟩ | ⟨hle, hlt, hrow⟩)
      · exact absurd heq hy
      · rw [show y.val - y0 = (y.val - (y0 + 1)) + 1 by omega, List.getD_cons_succ]
        exact ⟨by omega, by omega, hrow⟩
    · rintro ⟨hle, hlt, hrow⟩
      rw [show y.val - y0 = (y.val - (y0 + 1)) + 1 by omega, List.getD_cons_succ] at hrow
      exact .inr ⟨by omega, by omega, hrow⟩

theorem toggles_drawRows (x0 y0 : Nat) (rows : List Byte) (c : Canvas) :
    Toggles (rowsBit x0 y0 rows) c (drawRows x0 y0 rows c) := by
  induction rows generalizing y0 c with
  | nil =>
    refine .of_empty (fun x y h => ?_) c
    obtain ⟨hle, hlt, -⟩ := h
    rw [List.length_nil] at hlt
    omega
  | cons row rest ih =>
    refine ((toggles_drawRow x0 y0 row c).union (ih (y0 + 1) _) fun x y hrow hrest => ?_).congr
      (rowsBit_cons_iff x0 y0 row rest)
    obtain ⟨-, -, hy, -⟩ := hrow
    obtain ⟨hle, -⟩ := hrest
    omega

/-! ## The canvas of a draw -/

theorem getD_getBytes (m : List Host.Cell) (a n k : Nat) (hk : k < n) :
    (Memory.getBytes m a n).getD k 0 = Memory.get m (a + k) := by
  simp [Memory.getBytes, hk]

/-- The rows read from memory have their 1 bits where the sprite has. -/
theorem rowsBit_iff_spriteBit (s : State) (x y : Reg) (n : Nat) (cx : Fin 64) (cy : Fin 32) :
    rowsBit (startX s x) (startY s y) (Memory.getBytes s.mem (effAddr s 0) n) cx cy ↔ spriteBit s x y n cx cy := by
  unfold rowsBit rowBit spriteBit
  rw [Memory.length_getBytes]
  constructor
  · rintro ⟨hy, hyn, hx, hx8, -, hbit⟩
    rw [getD_getBytes _ _ _ _ (by omega)] at hbit
    exact ⟨hx, by omega, hy, hyn, hbit⟩
  · rintro ⟨hx, hx7, hy, hyn, hbit⟩
    refine ⟨hy, hyn, hx, by omega, rfl, ?_⟩
    rwa [getD_getBytes _ _ _ _ (by omega)]

/-- A draw toggles the cells under the sprite's 1 bits (R131, R132). -/
theorem toggles_drawnCanvas (s : State) (x y : Reg) (n : Nat) :
    Toggles (spriteBit s x y n) { disp := s.disp, flag := 0 } (drawnCanvas s x y n) :=
  (toggles_drawRows _ _ _ _).congr (rowsBit_iff_spriteBit s x y n)

/-- A draw whose rows lie in memory completes with its canvas. -/
theorem exec_drw_of_inRange {s : State} {n : Nat} (x y : Reg) (h : n = 0 ∨ s.i.toNat + n - 1 ≤ 0xFFF) :
    exec (.drw x y n) s = .next ((s.setDisp (drawnCanvas s x y n).disp).setReg vf (drawnCanvas s x y n).flag) :=
  (exec_drw x y n s).trans (if_pos ((inRange_rows_iff s n).mpr h))

/-- Settles O48: the canvas of the draw, cell by cell. -/
theorem drawTogglesSpriteCells : Obligations.DrawTogglesSpriteCells := by
  refine fun x y n s => ⟨fun hn => decodeWord_encode (i := .drw x y n) (decide_eq_true hn), fun hrange => ?_⟩
  have htoggles := toggles_drawnCanvas s x y n
  refine ⟨_, exec_drw_of_inRange x y hrange, fun cx cy => ⟨htoggles.inside cx cy, htoggles.outside cx cy⟩,
    fun h => ?_, fun h => ?_, frame_setDisp_setReg_vf s _ _⟩
  · exact (State.reg_setReg _ vf vf _).trans ((if_pos rfl).trans (htoggles.hit h))
  · exact (State.reg_setReg _ vf vf _).trans ((if_pos rfl).trans (htoggles.miss h))

/-- Settles O49: the range check of the rows, and the canvas of a draw of none. -/
theorem drawChecksItsRows : Obligations.DrawChecksItsRows := by
  refine fun x y n s =>
    ⟨fun hn hrange => ?_, s.setReg vf 0, exec_drw_of_inRange x y (.inl rfl), ?_, frame_setReg s vf 0⟩
  · refine (exec_drw x y n s).trans (if_neg fun h => ?_)
    have := (inRange_rows_iff s n).mp h
    omega
  · exact (State.reg_setReg s vf vf 0).trans (if_pos rfl)

/-! ## Flags -/

theorem flagOf_eq_zero_or_one (c : Bool) : flagOf c = 0 ∨ flagOf c = 1 := by
  cases c
  · exact .inl rfl
  · exact .inr rfl

/-- Settles O38: each of the five forms writes a `flagOf` to `VF`, a draw its collision. -/
theorem flagIsZeroOrOne : Obligations.FlagIsZeroOrOne := by
  rintro i s t (⟨x, y, hx, hi⟩ | ⟨x, y, n, rfl⟩) h
  · simp only [List.mem_cons, List.not_mem_nil, or_false] at hi
    rcases hi with rfl | rfl | rfl | rfl | rfl <;>
    · cases h
      have hflag : ∀ r c, (s.setRegFlag x r (flagOf c)).reg 0xF = flagOf c :=
        fun r c => reg_setRegFlag_vf s r (flagOf c) hx
      exact (hflag _ _).symm ▸ flagOf_eq_zero_or_one _
  · obtain ⟨-, rfl⟩ := of_checked_eq_next ((exec_drw x y n s).symm.trans h)
    have htoggles := toggles_drawnCanvas s x y n
    have hflag : ((s.setDisp (drawnCanvas s x y n).disp).setReg vf (drawnCanvas s x y n).flag).reg 0xF =
        (drawnCanvas s x y n).flag := (State.reg_setReg _ vf vf _).trans (if_pos rfl)
    rw [hflag]
    by_cases hhit : ∃ cx cy, spriteBit s x y n cx cy ∧ s.cell cx cy = cellOn
    · exact .inr (htoggles.hit hhit)
    · exact .inl (htoggles.miss hhit)

/-! ## The reach of the cells -/

/-- A host operation or instruction that leaves the display keeps the reach of its cells. -/
theorem CellsInReach.of_frame {w : Piece → Prop} {s t : State} (h : CellsInReach s) (hf : Frame w s t)
    (hw : ∀ x y, ¬ w (.cell x y)) : CellsInReach t := fun x y => by
  rw [hf.cell (hw x y)]
  exact h x y

/-- A function that keeps the values in reach keeps them in every cell. -/
theorem CellsInReach.mapCells {s : State} {f : Byte → Byte} (h : CellsInReach s)
    (hf : ∀ b ∈ reachableCells, f b ∈ reachableCells) : CellsInReach (s.setDisp (Display.mapCells f s.disp)) :=
  fun x y => by
    rw [State.cell_setDisp_mapCells]
    exact hf _ (h x y)

/-- A toggled cell is just cleared or fully on. -/
theorem toggleCell_mem_reachableCells (b : Byte) : toggleCell b ∈ reachableCells := by
  unfold toggleCell
  split <;> decide

theorem exec_cellsInReach {i : Instr} {s t : State} (hs : CellsInReach s) (h : exec i s = .next t) :
    CellsInReach t := by
  have hframe := exec_frame h
  cases i with
  | cls =>
    cases h
    exact hs.mapCells (by decide)
  | drw x y n =>
    obtain ⟨-, rfl⟩ := of_checked_eq_next ((exec_drw x y n s).symm.trans h)
    have htoggles := toggles_drawnCanvas s x y n
    intro cx cy
    change Display.cell (drawnCanvas s x y n).disp cx cy ∈ reachableCells
    by_cases hbit : spriteBit s x y n cx cy
    · rw [htoggles.inside cx cy hbit]
      exact toggleCell_mem_reachableCells _
    · rw [htoggles.outside cx cy hbit]
      exact hs cx cy
  | _ => exact hs.of_frame hframe (by simp [writes, regOrFlag])

theorem step_cellsInReach {s t : State} (hs : CellsInReach s) (h : step s = .next t) : CellsInReach t := by
  obtain ⟨i, -, -, hexec⟩ := exec_of_step_next h
  exact exec_cellsInReach (hs.of_frame (frame_setPc s _) (by simp)) hexec

/-- After a reset every cell holds 0 (D5). -/
theorem cell_resetOp (s : State) (table : Font) (x : Fin 64) (y : Fin 32) : (resetOp s table).cell x y = 0 := by
  simp [State.cell, Display.cell, resetOp, State.reset]

theorem cellsInReach_resetOp (s : State) (table : Font) : CellsInReach (resetOp s table) := fun x y => by
  rw [cell_resetOp]
  decide

/-- Settles O58: only 00E0, a draw, a decay and a reset write cells, and each keeps the seven values. -/
theorem cellsStayInReach : Obligations.CellsStayInReach := by
  refine ⟨fun _ _ => step_cellsInReach, fun op b b' r hb h => ?_⟩
  have hmove := hostMove_of_perform h
  generalize b'.core = t at hmove ⊢
  cases hmove with
  | reset => exact cellsInReach_resetOp b.core font
  | loadRom bytes hload =>
    obtain ⟨-, rfl⟩ := loadRom_some hload
    exact hb
  | step hstep => exact step_cellsInReach hb hstep
  | decay => exact hb.mapCells (by decide)
  | _ => exact hb

/-! ## Fading is invisible -/

/-- An answer with another display in its next state. -/
def withDisp (d : Display) (a : Answer) : Answer :=
  match a with
  | .next t => .next (t.setDisp d)
  | .fault f => .fault f
  | .refused r => .refused r

theorem State.skipIf_setDisp (s : State) (d : Display) (c : Bool) :
    (s.setDisp d).skipIf c = (s.skipIf c).setDisp d := by
  cases c <;> rfl

theorem State.setRegFlag_setDisp (s : State) (d : Display) (x : Reg) (r f : Byte) :
    (s.setDisp d).setRegFlag x r f = (s.setRegFlag x r f).setDisp d := by
  unfold State.setRegFlag
  split <;> rfl

theorem push_setDisp (a : Word) (s : State) (d : Display) :
    push a (s.setDisp d) = (push a s).map (State.setDisp · d) := by
  by_cases h : s.sp.val < stackDepth
  · rw [show push a s = _ from dif_pos h]
    exact dif_pos h
  · rw [show push a s = _ from dif_neg h]
    exact dif_neg h

theorem pop_setDisp (s : State) (d : Display) :
    pop (s.setDisp d) = (pop s).map (Prod.map id (State.setDisp · d)) := by
  by_cases h : 0 < s.sp.val
  · rw [show pop s = _ from dif_pos h]
    exact dif_pos h
  · rw [show pop s = _ from dif_neg h]
    exact dif_neg h

theorem loadRegsFrom_setDisp (regs : List Reg) (a : Nat) (s : State) (d : Display) :
    loadRegsFrom a regs (s.setDisp d) = (loadRegsFrom a regs s).setDisp d := by
  induction regs generalizing a s with
  | nil => rfl
  | cons r rest ih => exact ih (a + 1) (s.setReg r (s.byte a))

theorem withDisp_checked (d : Display) (kind : Word → Fault) (P : Prop) [Decidable P] (s u : State) :
    withDisp d (if P then .next u else raise kind s) = if P then .next (u.setDisp d) else raise kind (s.setDisp d) := by
  split_ifs <;> rfl

/-- An instruction that does not use the display runs under another one as it runs, and keeps that one. -/
theorem exec_setDisp {i : Instr} (s : State) (d : Display) (hcls : i ≠ .cls) (hdrw : ∀ x y n, i ≠ .drw x y n) :
    exec i (s.setDisp d) = withDisp d (exec i s) := by
  cases i with
  | cls => exact absurd rfl hcls
  | drw x y n => exact absurd rfl (hdrw x y n)
  | seImm | sneImm | seReg | sneReg => exact congrArg Host.Outcome.next (State.skipIf_setDisp s d _)
  | addReg | sub | shr | subn | shl => exact congrArg Host.Outcome.next (State.setRegFlag_setDisp s d _ _ _)
  | call nnn =>
    simp only [exec, execCall, State.setDisp_pc, push_setDisp]
    cases push s.pc s <;> rfl
  | ret =>
    simp only [exec, execRet, pop_setDisp]
    cases pop s <;> rfl
  | skp x =>
    cases hk : keyOf (s.reg x) with
    | none =>
      rw [exec_skp_of_keyOf_none hk]
      exact exec_skp_of_keyOf_none (s := s.setDisp d) hk
    | some k =>
      rw [exec_skp_of_keyOf_some hk]
      exact (exec_skp_of_keyOf_some (s := s.setDisp d) hk).trans (congrArg _ (State.skipIf_setDisp s d _))
  | sknp x =>
    cases hk : keyOf (s.reg x) with
    | none =>
      rw [exec_sknp_of_keyOf_none hk]
      exact exec_sknp_of_keyOf_none (s := s.setDisp d) hk
    | some k =>
      rw [exec_sknp_of_keyOf_some hk]
      exact (exec_sknp_of_keyOf_some (s := s.setDisp d) hk).trans (congrArg _ (State.skipIf_setDisp s d _))
  | ldVxK x =>
    cases hkey : firstPressed s with
    | none =>
      rw [exec_ldVxK_of_firstPressed_none x hkey]
      exact exec_ldVxK_of_firstPressed_none (s := s.setDisp d) x hkey
    | some k =>
      rw [exec_ldVxK_of_firstPressed_some x hkey]
      exact exec_ldVxK_of_firstPressed_some (s := s.setDisp d) x hkey
  | ldB x =>
    rw [exec_ldB, exec_ldB, withDisp_checked]
    rfl
  | storeRegs x =>
    rw [exec_storeRegs, exec_storeRegs, withDisp_checked]
    rfl
  | loadRegs x =>
    rw [exec_loadRegs, exec_loadRegs, withDisp_checked, loadRegsFrom_setDisp]
    rfl
  | _ => rfl

/-- Only 00E0 and a draw write cells (10_state.md R35). -/
theorem not_writes_cell {i : Instr} (s : State) (hcls : i ≠ .cls) (hdrw : ∀ x y n, i ≠ .drw x y n) (x : Fin 64)
    (y : Fin 32) : ¬ writes i s (.cell x y) := by
  cases i with
  | cls => exact absurd rfl hcls
  | drw x y n => exact absurd rfl (hdrw x y n)
  | _ => simp [writes, regOrFlag]

/-- States that differ in fade values alone are one state with two displays that are on in the same cells. -/
theorem sameButFade_setDisp {s : State} {d : Display} (h : ∀ x y, s.cell x y = cellOn ↔ Display.cell d x y = cellOn) :
    SameButFade s (s.setDisp d) := ⟨rfl, h⟩

/-- The same answer with a display that is on in the same cells as the next state's. -/
theorem sameAnswerButFade_withDisp {a : Answer} {d : Display}
    (h : ∀ t, a = .next t → ∀ x y, t.cell x y = cellOn ↔ Display.cell d x y = cellOn) :
    SameAnswerButFade a (withDisp d a) := by
  cases a with
  | next t => exact sameButFade_setDisp (h t rfl)
  | fault f => rfl
  | refused r => rfl

theorem toggleCell_eq_cellOn_iff (b : Byte) : toggleCell b = cellOn ↔ b ≠ cellOn := by
  unfold toggleCell
  split
  next h => simp [h, show cellCleared ≠ cellOn by decide]
  next h => simp [h]

/-- Two displays that are on in the same cells stay so when the same bits are toggled, and the flags agree. -/
theorem Toggles.sameButFade {P : Fin 64 → Fin 32 → Prop} {c d c' d' : Canvas} (h : Toggles P c d)
    (h' : Toggles P c' d') (hflag : c.flag = c'.flag)
    (hon : ∀ x y, Display.cell c.disp x y = cellOn ↔ Display.cell c'.disp x y = cellOn) :
    d.flag = d'.flag ∧ ∀ x y, Display.cell d.disp x y = cellOn ↔ Display.cell d'.disp x y = cellOn := by
  refine ⟨?_, fun x y => ?_⟩
  · have hiff : (∃ x y, P x y ∧ Display.cell c.disp x y = cellOn) ↔
        ∃ x y, P x y ∧ Display.cell c'.disp x y = cellOn := by
      simp only [hon]
    by_cases hhit : ∃ x y, P x y ∧ Display.cell c.disp x y = cellOn
    · rw [h.hit hhit, h'.hit (hiff.mp hhit)]
    · rw [h.miss hhit, h'.miss (mt hiff.mpr hhit), hflag]
  · by_cases hP : P x y
    · rw [h.inside x y hP, h'.inside x y hP, toggleCell_eq_cellOn_iff, toggleCell_eq_cellOn_iff, Ne, Ne, hon]
    · rw [h.outside x y hP, h'.outside x y hP, hon]

theorem exec_drw_sameButFade {s : State} {d : Display} (x y : Reg) (n : Nat)
    (hon : ∀ x y, s.cell x y = cellOn ↔ Display.cell d x y = cellOn) :
    SameAnswerButFade (exec (.drw x y n) s) (exec (.drw x y n) (s.setDisp d)) := by
  have hbits : Toggles (spriteBit s x y n) { disp := d, flag := 0 } (drawnCanvas (s.setDisp d) x y n) :=
    toggles_drawnCanvas (s.setDisp d) x y n
  obtain ⟨hflag, hcells⟩ := (toggles_drawnCanvas s x y n).sameButFade hbits rfl hon
  rw [exec_drw, exec_drw, ← hflag]
  change SameAnswerButFade _ (if inRange (effAddr s 0) n then _ else _)
  split_ifs
  · exact ⟨rfl, hcells⟩
  · rfl

/-- One instruction on two states that differ in fade values alone. -/
theorem exec_sameButFade {s : State} {d : Display} (i : Instr)
    (hon : ∀ x y, s.cell x y = cellOn ↔ Display.cell d x y = cellOn) :
    SameAnswerButFade (exec i s) (exec i (s.setDisp d)) := by
  by_cases hdrw : ∃ x y n, i = .drw x y n
  · obtain ⟨x, y, n, rfl⟩ := hdrw
    exact exec_drw_sameButFade x y n hon
  · by_cases hcls : i = .cls
    · subst hcls
      refine ⟨rfl, fun x y => ?_⟩
      rw [State.cell_setDisp_mapCells, State.cell_setDisp_mapCells]
      simp [clearCell_ne_cellOn]
    · have hdisp : ∀ x y n, i ≠ .drw x y n := fun x y n h => hdrw ⟨x, y, n, h⟩
      rw [exec_setDisp s d hcls hdisp]
      refine sameAnswerButFade_withDisp fun t ht x y => ?_
      rw [(exec_frame ht).cell (not_writes_cell s hcls hdisp x y)]
      exact hon x y

/-- A decay neither turns a cell on nor off (R135). -/
theorem decayCell_eq_cellOn_iff (b : Byte) : decayCell b = cellOn ↔ b = cellOn := by
  unfold decayCell
  split
  next h =>
    obtain ⟨hlow, hhigh⟩ := h
    simp only [decayFloor, cellOn, decayStep] at *
    bv_omega
  next => rfl

/-- Settles O59: both states fetch the same word, and its instruction does not look at the fade values. -/
theorem fadingIsInvisible : Obligations.FadingIsInvisible := by
  refine ⟨?_, fun s => ?_⟩
  · rintro s t ⟨hst, hon⟩
    rw [hst]
    obtain ⟨hw, hs⟩ | ⟨w, hw, hd, hs⟩ | ⟨w, i, hw, hd, hs⟩ := step_spec s
    · have ht : step (s.setDisp t.disp) = .fault (.outOfBounds s.pc) := step_of_fetch_none hw
      rw [hs, ht]
      rfl
    · have ht : step (s.setDisp t.disp) = .fault (.unknownOpcode (s.pc + 2)) := step_of_decode_none hw hd
      rw [hs, ht]
      rfl
    · have ht : step (s.setDisp t.disp) = exec i (s.advance.setDisp t.disp) := step_of_decode_some hw hd
      rw [hs, ht]
      exact exec_sameButFade i hon
  · refine sameButFade_setDisp fun x y => ?_
    rw [Display.cell_mapCells, decayCell_eq_cellOn_iff]
    rfl

end Sys2Proof.Machine
end

section
/-! Single instructions: registers (42_alu.md), the index register and memory (43_index_memory.md), keys and timers
(45_keypad_timers.md). -/

open Sys2Proof.Laws

namespace Sys2Proof.Machine

/-! ## One write, of a register, a timer or `I` -/

@[simp] theorem State.reg_setReg_self (s : State) (x : Reg) (b : Byte) : (s.setReg x b).reg x = b :=
  (State.reg_setReg s x x b).trans (if_pos rfl)

/-- An instruction that ends in a write to a register. -/
theorem setReg_completes {i : Instr} {s : State} {x : Reg} {b : Byte} (h : exec i s = .next (s.setReg x b)) :
    ∃ t, exec i s = .next t ∧ t.reg x = b ∧ Frame (fun p => p = .reg x) s t :=
  ⟨_, h, State.reg_setReg_self s x b, frame_setReg s x b⟩

/-- Settles O32: a load writes `nn`, an addition the sum of two bytes. -/
theorem immediateLoadAndAdd : Obligations.ImmediateLoadAndAdd := by
  refine fun x nn s => ⟨decodeWord_encode (i := .ldImm x nn) rfl, decodeWord_encode (i := .addImm x nn) rfl,
    setReg_completes rfl, ?_⟩
  obtain ⟨t, ht, hx, hframe⟩ := setReg_completes (i := .addImm x nn) (s := s) rfl
  exact ⟨t, ht, by rw [hx, BitVec.toNat_add], hframe⟩

/-- Settles O33: each form is one write to `Vx`, of `Vy` or of a bitwise function of the two. -/
theorem assignAndLogic : Obligations.AssignAndLogic := by
  refine fun x y s => ⟨⟨decodeWord_encode (i := .ldReg x y) rfl, decodeWord_encode (i := .orReg x y) rfl,
    decodeWord_encode (i := .andReg x y) rfl, decodeWord_encode (i := .xorReg x y) rfl⟩, setReg_completes rfl,
    ?_, ?_, ?_⟩
  · obtain ⟨t, ht, hx, hframe⟩ := setReg_completes (i := .orReg x y) (s := s) rfl
    exact ⟨t, ht, fun b => by rw [hx, BitVec.getLsbD_or], hframe⟩
  · obtain ⟨t, ht, hx, hframe⟩ := setReg_completes (i := .andReg x y) (s := s) rfl
    exact ⟨t, ht, fun b => by rw [hx, BitVec.getLsbD_and], hframe⟩
  · obtain ⟨t, ht, hx, hframe⟩ := setReg_completes (i := .xorReg x y) (s := s) rfl
    exact ⟨t, ht, fun b => by rw [hx, BitVec.getLsbD_xor], hframe⟩

/-- Settles O39: the draw moves the counter, and the masked byte goes to `Vx`. -/
theorem randomIsMasked : Obligations.RandomIsMasked := by
  refine fun x nn s => ⟨decodeWord_encode (i := .rnd x nn) rfl, _, rfl, State.reg_setReg_self _ x _, rfl,
    fun b hb => ?_, frame_drawn_setReg s x _⟩
  rw [State.reg_setReg_self, BitVec.getLsbD_and, hb, Bool.and_false]

/-- The address of a glyph as a number: 5 bytes for each value of the byte (R122). -/
theorem toNat_glyphAddr (b : Byte) : (glyphAddr b).toNat = 0x050 + 5 * b.toNat := by
  have hlt := b.isLt
  simp only [glyphAddr, BitVec.toNat_add, BitVec.toNat_mul, BitVec.toNat_ofNat, toNat_zext16, fontBase, glyphBytes]
  omega

/-- Settles O41: each form is one write to `I`. -/
theorem indexArithmetic : Obligations.IndexArithmetic := fun x s =>
  ⟨decodeWord_encode (i := .addI x) rfl, decodeWord_encode (i := .ldF x) rfl,
    ⟨_, rfl, by rw [State.setI_i, BitVec.toNat_add, toNat_zext16], frame_setI s _⟩,
    ⟨_, rfl, toNat_glyphAddr _, frame_setI s _⟩⟩

/-- Settles O53: each form is one write, of a timer to `Vx` or of `Vx` to a timer. -/
theorem timerAccess : Obligations.TimerAccess := fun x s =>
  ⟨⟨decodeWord_encode (i := .ldVxDt x) rfl, decodeWord_encode (i := .ldDtVx x) rfl,
      decodeWord_encode (i := .ldStVx x) rfl⟩,
    setReg_completes rfl, ⟨_, rfl, rfl, frame_setDt s _⟩, ⟨_, rfl, rfl, frame_setSt s _⟩⟩

/-! ## Flag and result into `VF` -/

/-- What `VF` ends as, as a number, under the model's own order of the two writes (R114). -/
theorem toNat_openVf (r f : Byte) : (openVf r f).toNat = finalVf vfOrder r.toNat f.toNat := by
  obtain ⟨horder, hvf⟩ | ⟨horder, hvf⟩ := openVf_cases r f <;> rw [horder, hvf] <;> rfl

/-- A flag-writing form with `VF` as destination completes with result or flag there, and nothing else changed. -/
theorem resultOrFlag_completes {i : Instr} {s : State} {r f : Byte} {result flag : Nat}
    (h : exec i s = .next (s.setRegFlag vf r f)) (hr : r.toNat = result) (hf : f.toNat = flag) :
    ∃ t, exec i s = .next t ∧ (t.reg 0xF).toNat = finalVf vfOrder result flag ∧
      Frame (fun p => p = .reg 0xF) s t := by
  rw [State.setRegFlag_vf] at h
  obtain ⟨t, ht, hvf, hframe⟩ := setReg_completes h
  exact ⟨t, ht, by rw [← hr, ← hf, ← toNat_openVf]; exact congrArg _ hvf, hframe⟩

theorem toNat_flagOf_decide (P : Prop) [Decidable P] : (flagOf (decide P)).toNat = if P then 1 else 0 := by
  rw [toNat_flagOf]
  split <;> simp [*]

/-- Settles O37: the order is the model's, and each form writes the result and the flag it has with any destination. -/
theorem flagIntoItsOwnDestination : Obligations.FlagIntoItsOwnDestination :=
  ⟨vfOrder, fun _ _ =>
    ⟨resultOrFlag_completes rfl (BitVec.toNat_add _ _) (toNat_flagOf_decide _),
      resultOrFlag_completes rfl (toNat_sub_byte _ _) (toNat_flagOf_decide _),
      resultOrFlag_completes rfl (toNat_shiftRight_one _) (toNat_lowBitFlag _),
      resultOrFlag_completes rfl (toNat_sub_byte _ _) (toNat_flagOf_decide _),
      resultOrFlag_completes rfl (toNat_shiftLeft_one _) (toNat_highBitFlag _)⟩⟩

/-! ## Key skips -/

/-- Settles O50: `Vx` names the key, and both forms end in a skip on its bit. -/
theorem keySkips : Obligations.KeySkips := by
  refine fun x k s => ⟨decodeWord_encode (i := .skp x) rfl, decodeWord_encode (i := .sknp x) rfl, fun hk => ?_⟩
  have hkey := keyOf_eq_some_iff.mpr hk
  refine ⟨⟨_, exec_skp_of_keyOf_some hkey, ?_, frame_skipIf s _⟩,
    ⟨_, exec_sknp_of_keyOf_some hkey, ?_, frame_skipIf s _⟩⟩
  · cases s.pressed k <;> rfl
  · cases s.pressed k <;> rfl

/-- Settles O51: a byte above 15 names no key. -/
theorem keyNumberAbove15Faults : Obligations.KeyNumberAbove15Faults := fun _ _ h =>
  ⟨exec_skp_of_keyOf_none (keyOf_eq_none_iff.mpr h), exec_sknp_of_keyOf_none (keyOf_eq_none_iff.mpr h)⟩

/-! ## Stored and loaded bytes -/

/-- Byte `k` of a stored block. -/
theorem State.byte_setBytes_add (s : State) (a k : Nat) (bs : List Byte) (h : k < bs.length) :
    (s.setBytes a bs).byte (a + k) = bs[k] := by
  rw [State.byte_setBytes, dif_pos ⟨by omega, by omega⟩]
  simp

/-- Fx33 in range stores the digits. -/
theorem exec_ldB_of_le {s : State} (x : Reg) (h : s.i.toNat + 2 ≤ 0xFFF) :
    exec (.ldB x) s = .next (s.setBytes (effAddr s 0) (bcdDigits (s.reg x))) :=
  (exec_ldB x s).trans (if_pos ((inRange_succ_iff s 2).mpr h))

/-- Fx55 in range stores the registers. -/
theorem exec_storeRegs_of_le {s : State} {x : Reg} (h : s.i.toNat + x.val ≤ 0xFFF) :
    exec (.storeRegs x) s = .next (s.setBytes (effAddr s 0) ((regsUpTo x).map s.reg)) :=
  (exec_storeRegs x s).trans (if_pos ((inRange_succ_iff s x).mpr h))

/-- Fx65 in range loads the registers. -/
theorem exec_loadRegs_of_le {s : State} {x : Reg} (h : s.i.toNat + x.val ≤ 0xFFF) :
    exec (.loadRegs x) s = .next (loadRegsFrom (effAddr s 0) (regsUpTo x) s) :=
  (exec_loadRegs x s).trans (if_pos ((inRange_succ_iff s x).mpr h))

/-- A failing range check of `count + 1` bytes. -/
theorem fault_of_range {i : Instr} {s u : State} {count : Nat}
    (h : exec i s = if inRange (effAddr s 0) (count + 1) then .next u else raise .outOfBounds s)
    (hrange : 0xFFF < s.i.toNat + count) : exec i s = .fault (.outOfBounds s.pc) :=
  h.trans (if_neg (mt (inRange_succ_iff s count).mp hrange.not_ge))

/-- A decimal digit or the hundreds of a byte fit in a byte. -/
theorem toNat_ofNat_byte {n : Nat} (h : n < 256) : (BitVec.ofNat 8 n).toNat = n := by
  rw [BitVec.toNat_ofNat, Nat.mod_eq_of_lt h]

/-- Settles O42: the three stored bytes are the digits. -/
theorem bcdStoresDigits : Obligations.BcdStoresDigits := by
  refine fun x s => ⟨decodeWord_encode (i := .ldB x) rfl, fun hrange => ?_, fault_of_range (exec_ldB x s)⟩
  have hlt := (s.reg x).isLt
  have hbyte := fun k (hk : k < 3) => State.byte_setBytes_add s (effAddr s 0) k (bcdDigits (s.reg x)) hk
  refine ⟨_, exec_ldB_of_le x hrange, ?_, ?_, ?_, frame_setBytes_effAddr s (bcdDigits (s.reg x))⟩
  · exact (congrArg BitVec.toNat (hbyte 0 (by decide))).trans (toNat_ofNat_byte (by omega))
  · exact (congrArg BitVec.toNat (hbyte 1 (by decide))).trans (toNat_ofNat_byte (by omega))
  · exact (congrArg BitVec.toNat (hbyte 2 (by decide))).trans (toNat_ofNat_byte (by omega))

/-- The byte a store of `V0` to `Vx` leaves at the place of register `r`. -/
theorem byte_of_storeRegs {s t : State} {x r : Reg} (h : exec (.storeRegs x) s = .next t) (hr : r ≤ x) :
    t.byte (effAddr s r.val) = s.reg r := by
  obtain ⟨-, rfl⟩ := of_checked_eq_next ((exec_storeRegs x s).symm.trans h)
  have hlen : r.val < ((regsUpTo x).map s.reg).length := by
    rw [List.length_map, length_regsUpTo]
    exact Nat.lt_succ_of_le hr
  refine (State.byte_setBytes_add s (effAddr s 0) r.val _ hlen).trans ?_
  rw [List.getElem_map]
  exact congrArg s.reg (Fin.ext (getElem_regsUpTo x r.val _))

/-- Settles O43: `byte_of_storeRegs` for each register, `exec_frame` for the rest. -/
theorem storeRegistersUpToX : Obligations.StoreRegistersUpToX := by
  refine fun x s => ⟨decodeWord_encode (i := .storeRegs x) rfl, fun hrange => ?_, fault_of_range (exec_storeRegs x s)⟩
  have hexec := exec_storeRegs_of_le hrange
  exact ⟨_, hexec, fun r hr => byte_of_storeRegs hexec hr, exec_frame hexec⟩

/-- A load from consecutive bytes: the register at place `k` of the list gets byte `k`. -/
theorem reg_loadRegsFrom {regs : List Reg} (hnodup : regs.Nodup) (a : Nat) (s : State) (k : Nat)
    (hk : k < regs.length) : (loadRegsFrom a regs s).reg regs[k] = s.byte (a + k) := by
  induction regs generalizing a s k with
  | nil => cases hk
  | cons r rest ih =>
    obtain ⟨hr, hrest⟩ := List.nodup_cons.mp hnodup
    cases k with
    | zero =>
      have hkept := (frame_loadRegsFrom rest (a + 1) (s.setReg r (s.byte a))).reg (r := r)
        fun ⟨q, hq, hqr⟩ => hr (Piece.reg.inj hqr ▸ hq)
      exact hkept.trans (State.reg_setReg_self s r _)
    | succ k =>
      rw [List.getElem_cons_succ, loadRegsFrom, ih hrest, Nat.add_assoc, Nat.add_comm 1 k]
      rfl

/-- The value a load of `V0` to `Vx` leaves in register `r`. -/
theorem reg_of_loadRegs {s t : State} {x r : Reg} (h : exec (.loadRegs x) s = .next t) (hr : r ≤ x) :
    t.reg r = s.byte (effAddr s r.val) := by
  obtain ⟨-, rfl⟩ := of_checked_eq_next ((exec_loadRegs x s).symm.trans h)
  have hlen : r.val < (regsUpTo x).length := by
    rw [length_regsUpTo]
    exact Nat.lt_succ_of_le hr
  have hreg : (regsUpTo x)[r.val] = r := Fin.ext (getElem_regsUpTo x r.val hlen)
  have hload := reg_loadRegsFrom (nodup_regsUpTo x) (effAddr s 0) s r.val hlen
  rwa [hreg] at hload

/-- A store leaves `I`. -/
theorem storeRegs_i {s t : State} {x : Reg} (h : exec (.storeRegs x) s = .next t) : t.i = s.i := by
  obtain ⟨-, rfl⟩ := of_checked_eq_next ((exec_storeRegs x s).symm.trans h)
  rfl

/-- A store that completes has its range in memory. -/
theorem storeRegs_range {s t : State} {x : Reg} (h : exec (.storeRegs x) s = .next t) :
    s.i.toNat + x.val ≤ 0xFFF := by
  obtain ⟨hrange, -⟩ := of_checked_eq_next ((exec_storeRegs x s).symm.trans h)
  exact (inRange_succ_iff s x).mp hrange

/-- Settles O44: `reg_of_loadRegs` for each register; after a store the bytes are those of `byte_of_storeRegs`. -/
theorem loadRegistersUpToX : Obligations.LoadRegistersUpToX := by
  refine fun x s => ⟨decodeWord_encode (i := .loadRegs x) rfl, fun hrange => ?_, fault_of_range (exec_loadRegs x s),
    fun t u hstore hmem hi => ?_⟩
  · have hexec := exec_loadRegs_of_le hrange
    exact ⟨_, hexec, fun r hr => reg_of_loadRegs hexec hr, exec_frame hexec⟩
  · have hui : u.i = s.i := hi.trans (storeRegs_i hstore)
    have hload : exec (.loadRegs x) u = .next _ := exec_loadRegs_of_le (by rw [hui]; exact storeRegs_range hstore)
    refine ⟨_, hload, fun r hr => ?_, ?_⟩
    · calc _ = u.byte (effAddr u r.val) := reg_of_loadRegs hload hr
        _ = t.byte (effAddr s r.val) := by rw [State.byte, State.byte, hmem, effAddr, effAddr, hui]
        _ = s.reg r := byte_of_storeRegs hstore hr
    · have hkept := exec_frame hload .index (by simp [writes])
      exact (BitVec.eq_of_toNat_eq hkept).trans hui

/-- Settles O45: the fetch reads the bytes of the two registers. -/
theorem storedWordIsFetched : Obligations.StoredWordIsFetched := by
  intro x r q s t h hq hqx hpc
  have hrx : r ≤ x := Fin.le_def.mpr (by have := Fin.le_def.mp hqx; omega)
  have hnext : t.pc.toNat + 1 = effAddr s q.val := by
    rw [hpc, hq]
    rfl
  have hrange := storeRegs_range h
  have hle : t.pc.toNat ≤ 0xFFE := by
    have := Fin.le_def.mp hqx
    rw [hpc, effAddr]
    omega
  rw [fetchWord_of_le hle, hnext, hpc, byte_of_storeRegs h hrx, byte_of_storeRegs h hqx]
  rfl

/-! ## Canonical memories -/

/-- An address without a cell reads as its reset content. -/
theorem Memory.get_of_forall_ne {m : List Host.Cell} {a : Nat} (h : ∀ e ∈ m, e.1 ≠ a) :
    Memory.get m a = resetByte a := by
  induction m with
  | nil => rfl
  | cons e rest ih =>
    rw [Memory.get, if_neg (h e List.mem_cons_self).symm]
    exact ih fun f hf => h f (List.mem_cons_of_mem e hf)

/-- A cell of a canonical memory is what its address reads. -/
theorem Memory.get_of_mem {m : List Host.Cell} (hm : m.Pairwise (fun c d => c.1 < d.1)) {e : Host.Cell} (he : e ∈ m) :
    Memory.get m e.1 = e.2 := by
  induction m with
  | nil => cases he
  | cons f rest ih =>
    obtain ⟨hf, hrest⟩ := List.pairwise_cons.mp hm
    rcases List.mem_cons.mp he with rfl | he
    · rw [Memory.get, if_pos rfl]
    · rw [Memory.get, if_neg (hf e he).ne', ih hrest he]

/-- The cells of a canonical memory are the addresses that do not read their reset content, with what they read. -/
theorem Memory.mem_iff_of_wf {m : List Host.Cell} (hm : Memory.wf m) (e : Host.Cell) :
    e ∈ m ↔ Memory.get m e.1 = e.2 ∧ e.2 ≠ resetByte e.1 := by
  obtain ⟨hsorted, hcells⟩ := hm
  refine ⟨fun he => ⟨Memory.get_of_mem hsorted he, (hcells e he).2⟩, fun ⟨hget, hne⟩ => ?_⟩
  by_contra hnot
  by_cases hlisted : ∃ f ∈ m, f.1 = e.1
  · obtain ⟨f, hf, hfe⟩ := hlisted
    have hfget := Memory.get_of_mem hsorted hf
    rw [hfe, hget] at hfget
    exact hnot (Prod.ext hfe hfget.symm ▸ hf)
  · exact hne (hget ▸ Memory.get_of_forall_ne fun f hf hfe => hlisted ⟨f, hf, hfe⟩)

/-- Settles O46: both lists have the same cells, and both are sorted by address. -/
theorem canonicalMemoryUnique : Obligations.CanonicalMemoryUnique := by
  intro m m' hm hm' hget
  have : Std.Antisymm (fun c d : Host.Cell => c.1 < d.1) := ⟨fun _ _ hcd hdc => absurd hcd hdc.asymm⟩
  have : Std.Irrefl (fun c d : Host.Cell => c.1 < d.1) := ⟨fun _ => lt_irrefl _⟩
  refine hm.1.eq_of_mem_iff hm'.1 fun e => ?_
  rw [Memory.mem_iff_of_wf hm, Memory.mem_iff_of_wf hm', hget]

end Sys2Proof.Machine
end

section
/-! The host's operations: reset and ROM (70_reset_and_hazards.md), ticks and decays, the phases of the block
(60_exceptions.md section 3), and the other memory size (90_conflicts.md C1). -/

open Sys2Proof.Laws

namespace Sys2Proof.Machine

/-! ## Reset -/

/-- Outside the font area a reset leaves 0. -/
theorem byte_resetOp_of_outside (s : State) (table : Font) {a : Nat} (h : a < 0x050 ∨ 0x0A0 ≤ a) :
    (resetOp s table).byte a = 0 := by
  rw [byte_resetOp, dif_neg (by omega)]

/-- In the font area a reset leaves the table. -/
theorem byte_resetOp_font (s : State) (table : Font) (j : Nat) (h : j < 80) :
    (resetOp s table).byte (0x050 + j) = table[j] := by
  rw [byte_resetOp, dif_pos ⟨by omega, by omega⟩]
  simp

theorem reg_resetOp (s : State) (table : Font) (r : Reg) : (resetOp s table).reg r = 0 := by
  simp [State.reg, resetOp, State.reset]

theorem pressed_resetOp (s : State) (table : Font) (k : Reg) : (resetOp s table).pressed k = false := by
  simp [State.pressed, resetOp, State.reset]

/-- The word at `0x200` after a reset is 0, which is unknown. -/
theorem step_resetOp (s : State) (table : Font) : step (resetOp s table) = .fault (.unknownOpcode 0x202) := by
  have hfetch : fetchWord (resetOp s table) = some (wordOfBytes 0 0) := by
    rw [fetchWord_of_le (s := resetOp s table) (show (0x200 : Nat) ≤ 0xFFE by decide),
      show (resetOp s table).pc.toNat = 0x200 from rfl,
      byte_resetOp_of_outside s table (.inr (by decide)), byte_resetOp_of_outside s table (.inr (by decide))]
  exact step_of_decode_none hfetch rfl

/-- Settles O14: the fields are those of `State.reset`, memory is `byte_resetOp`. -/
theorem resetLeavesSpecValues : Obligations.ResetLeavesSpecValues := fun s table =>
  ⟨reg_resetOp s table, rfl, rfl, rfl, rfl, rfl, byte_resetOp_font s table, fun _ => byte_resetOp_of_outside s table,
    cell_resetOp s table, pressed_resetOp s table, step_resetOp s table, byte_resetOp_font s font⟩

/-- A reset leaves `pc` at `0x200` and an empty stack. -/
theorem pcInReach_resetOp (s : State) (table : Font) : PcInReach (resetOp s table) :=
  ⟨show (0x200 : Nat) ≤ 0x10FE by decide, fun _ hk => absurd hk (Nat.not_lt_zero _)⟩

/-- Settles O54: the state after reset is what a reset with the default font makes of it. -/
theorem resetMeetsInvariants : Obligations.ResetMeetsInvariants := by
  have hreset : resetOp State.reset font = State.reset := resetOp_font State.reset
  have hall := fun s table =>
    And.intro (wf_resetOp s table memSize) (And.intro (pcInReach_resetOp s table) (cellsInReach_resetOp s table))
  exact ⟨hreset ▸ hall State.reset font, hall⟩

/-! ## The ROM -/

theorem loadRom_of_le {rom : List Byte} (s : State) (h : rom.length ≤ 3584) :
    loadRom rom s = some (s.setBytes romBase rom) :=
  if_pos (by rw [bytesOf_memSize, romBase]; omega)

/-- Settles O15: a ROM that fits is stored as one block. -/
theorem loadRomCopiesOrRejects : Obligations.LoadRomCopiesOrRejects := by
  refine fun rom s => ⟨fun h => ⟨_, loadRom_of_le s h, fun j hj => State.byte_setBytes_add s romBase j rom hj,
    frame_setBytes s romBase rom⟩, fun h => if_neg ?_⟩
  rw [bytesOf_memSize, romBase]
  omega

/-- The block after the boot sequence with a ROM that fits. -/
theorem runSchedule_bootSequence {rom : List Byte} (b : Block) (table : Font) (h : rom.length ≤ 3584) :
    runSchedule (bootSequence rom) b memSize table =
      some { core := (resetOp b.core table).setBytes romBase rom, phase := .ready } := by
  simp [bootSequence, runSchedule, perform, loadRomOp, loadRom_of_le _ h]

/-- Settles O16: the first two bytes of the ROM stand at `0x200`, where `pc` stands. -/
theorem bootFetchesRomStart : Obligations.BootFetchesRomStart := by
  intro hi lo rest b table hlen
  let t := (resetOp b.core table).setBytes romBase (hi :: lo :: rest)
  have hbyte := fun j hj => State.byte_setBytes_add (resetOp b.core table) romBase j (hi :: lo :: rest) hj
  have hhi : t.byte 0x200 = hi := hbyte 0 (by simp)
  have hlo : t.byte 0x201 = lo := hbyte 1 (by simp)
  refine ⟨_, runSchedule_bootSequence b table (by simp only [List.length_cons]; omega), rfl, rfl, ?_⟩
  calc fetchWord t = some (wordOfBytes (t.byte 0x200) (t.byte 0x201)) :=
        fetchWord_of_le (s := t) (show (0x200 : Nat) ≤ 0xFFE by decide)
    _ = some (hi ++ lo) := by rw [hhi, hlo, wordOfBytes]

/-! ## Ticks and decays, repeated -/

/-- A timer after `k` ticks. -/
theorem toNat_countDown_iterate (k : Nat) (b : Byte) : (countDown^[k] b).toNat = b.toNat - k := by
  induction k with
  | zero => rfl
  | succ k ih =>
    rw [Function.iterate_succ_apply', toNat_countDown, ih, Nat.sub_sub]

theorem dt_tick_iterate (k : Nat) (s : State) : (tick^[k] s).dt = countDown^[k] s.dt :=
  (Function.Semiconj.iterate_right (f := State.dt) (fun _ => rfl) k) s

theorem st_tick_iterate (k : Nat) (s : State) : (tick^[k] s).st = countDown^[k] s.st :=
  (Function.Semiconj.iterate_right (f := State.st) (fun _ => rfl) k) s

/-- Settles O19: the timer starts at the register's value and is counted down by each tick. -/
theorem timerReadsAfterTicks : Obligations.TimerReadsAfterTicks := by
  refine fun x y k s => ⟨⟨s.setDt (s.reg x), _, rfl, rfl, ?_⟩, ⟨s.setSt (s.reg x), rfl, ?_⟩⟩
  · rw [State.reg_setReg_self, dt_tick_iterate, toNat_countDown_iterate, State.setDt_dt]
  · rw [st_tick_iterate, toNat_countDown_iterate, State.setSt_st]

/-- What a decay does to a cell, as a number (R135). -/
theorem toNat_decayCell (b : Byte) :
    (decayCell b).toNat = if 60 < b.toNat ∧ b.toNat < 255 then b.toNat - 60 else b.toNat := by
  have hcond : (decayFloor < b ∧ b < cellOn) ↔ (60 < b.toNat ∧ b.toNat < 255) := Iff.rfl
  rw [decayCell, apply_ite BitVec.toNat, if_congr hcond rfl rfl]
  split
  next h =>
    rw [toNat_sub_byte, show decayStep.toNat = 60 from rfl]
    omega
  next => rfl

theorem cell_decay (s : State) (x : Fin 64) (y : Fin 32) : (decay s).cell x y = decayCell (s.cell x y) :=
  State.cell_setDisp_mapCells s decayCell x y

/-- Settles O20: `toNat_decayCell` in each cell. -/
theorem decayFadesCells : Obligations.DecayFadesCells := fun s =>
  ⟨fun x y => by rw [cell_decay, toNat_decayCell], frame_setDisp s _⟩

theorem cell_decay_iterate (k : Nat) (s : State) (x : Fin 64) (y : Fin 32) :
    (decay^[k] s).cell x y = decayCell^[k] (s.cell x y) :=
  (Function.Semiconj.iterate_right (f := fun s => State.cell s x y) (fun s => cell_decay s x y) k) s

/-- A cell at rest stays. -/
theorem decayCell_of_rest : ∀ b ∈ ([0, 14, 255] : List Byte), decayCell b = b := by decide

/-- Settles O21: 254 reaches 14 in four decays, and 0, 14 and 255 are fixed. -/
theorem decayComesToRest : Obligations.DecayComesToRest := by
  refine ⟨fun s x y h => ⟨?_, ?_, ?_, fun k => ?_⟩, fun s h => ?_⟩
  · rw [cell_decay, h]
    decide
  · rw [cell_decay_iterate, h]
    decide
  · rw [cell_decay_iterate, h]
    decide
  · have hfour : decayCell^[4] 254 = 14 := by decide
    rw [cell_decay_iterate, h, Function.iterate_add_apply, hfour,
      Function.iterate_fixed (decayCell_of_rest 14 (by decide))]
  · have hdisp : Display.mapCells decayCell s.disp = s.disp := Display.ext_cell fun x y => by
      rw [Display.cell_mapCells]
      exact decayCell_of_rest _ (h x y)
    rw [decay, hdisp]
    rfl

/-! ## The phases of the block -/

/-- Before the first reset only `Reset` is open (R34). -/
theorem perform_isSome_iff_of_constructed {b : Block} (hb : b.phase = .constructed) (op : HostOp) :
    (perform op b).isSome ↔ op = .reset := by
  cases op <;> simp [perform, hb]

/-- On a stopped block every open operation but a reset keeps the stop, and none is a step (R165, R184). -/
theorem perform_of_stopped {b b' : Block} {op : HostOp} {r : Reply}
    (hb : b.phase = .aborted ∨ ∃ r, b.phase = .failed r) (hop : op ≠ .reset) (h : perform op b = some (b', r)) :
    b'.phase = b.phase ∧ op ≠ .step := by
  have hready : b.phase ≠ .ready := by
    rintro hr
    simp [hr] at hb
  cases op with
  | reset => exact absurd rfl hop
  | loadRom => simp [perform, hready] at h
  | step => simp [perform, hready] at h
  | loadKeys | tick | decay | readCell =>
    rw [perform, Option.ite_none_left_eq_some] at h
    cases h.2
    exact ⟨rfl, nofun⟩

/-- Settles O22: by induction on the schedule, `perform_of_stopped` for each operation. -/
theorem stopLastsUntilReset : Obligations.StopLastsUntilReset := by
  refine ⟨fun op b hb => (perform_isSome_iff_of_constructed hb op).symm, fun ops => ?_⟩
  induction ops with
  | nil =>
    intro b b' hb hreset hrun
    cases hrun
    exact ⟨rfl, List.not_mem_nil⟩
  | cons op rest ih =>
    intro b b' hb hreset hrun
    obtain ⟨hop, hrest⟩ := not_or.mp (mt List.mem_cons.mpr hreset)
    rw [runSchedule] at hrun
    split at hrun
    next c r hperform =>
      obtain ⟨hphase, hstep⟩ := perform_of_stopped hb (Ne.symm hop) hperform
      obtain ⟨hphase', hsteps⟩ := ih c b' (hphase ▸ hb) hrest hrun
      exact ⟨hphase'.trans hphase, fun hmem => (List.mem_cons.mp hmem).elim (hstep ∘ Eq.symm) hsteps⟩
    next => cases hrun

/-! ## The other memory size -/

/-- The range check under 4095 bytes: it fails where it failed, and where the range ends at `0xFFF`. -/
theorem ite_inRange_4095 {α : Type} (a n : Nat) (x y : α) :
    (if inRange a n .bytes4095 then x else y) =
      if 0 < n ∧ a + (n - 1) = 0xFFF then y else if inRange a n then x else y := by
  have hiff : inRange a n .bytes4095 ↔ inRange a n ∧ ¬ (0 < n ∧ a + (n - 1) = 0xFFF) := by
    rw [inRange_4095_iff, inRange_iff]
    omega
  by_cases hlast : 0 < n ∧ a + (n - 1) = 0xFFF
  · rw [if_pos hlast, if_neg fun h => (hiff.mp h).2 hlast]
  · rw [if_neg hlast, if_congr (hiff.trans (and_iff_left hlast)) rfl rfl]

theorem fetchWord_4095 (s : State) :
    fetchWord s .bytes4095 = if s.pc.toNat = 0xFFE then none else fetchWord s :=
  (ite_inRange_4095 s.pc.toNat 2 _ _).trans (if_congr (by omega) rfl rfl)

/-- An instruction under 4095 bytes fails too when its range ends at `0xFFF`. -/
theorem execIn_4095 (i : Instr) (s : State) : execIn .bytes4095 i s =
    if 0 < dataBytes i ∧ s.i.toNat + (dataBytes i - 1) = 0xFFF then .fault (.outOfBounds s.pc) else exec i s := by
  cases i with
  | drw x y n => exact ite_inRange_4095 (effAddr s 0) n _ _
  | ldB x => exact ite_inRange_4095 (effAddr s 0) 3 _ _
  | storeRegs x => exact ite_inRange_4095 (effAddr s 0) (x.val + 1) _ _
  | loadRegs x => exact ite_inRange_4095 (effAddr s 0) (x.val + 1) _ _
  | _ => exact (if_neg fun h => Nat.lt_irrefl 0 h.1).symm

/-- A step under 4095 bytes that does not fetch at `0xFFF`: the step, or its instruction under 4095 bytes. -/
theorem cycleIn_4095_spec {s : State} (hpc : s.pc.toNat ≠ 0xFFE) :
    (nextInstr s = none ∧ cycleIn .bytes4095 s = step s) ∨
      ∃ i, nextInstr s = some i ∧ step s = exec i s.advance ∧
        cycleIn .bytes4095 s = execIn .bytes4095 i s.advance := by
  have hfetch : fetchWord s .bytes4095 = fetchWord s := (fetchWord_4095 s).trans (if_neg hpc)
  obtain ⟨hw, hs⟩ | ⟨w, hw, hd, hs⟩ | ⟨w, i, hw, hd, hs⟩ := step_spec s
  · exact .inl ⟨by simp only [nextInstr, hw], by simp only [cycleIn, finishCycle, hfetch, hw, hs, raise]⟩
  · exact .inl ⟨by simp only [nextInstr, hw, hd], by simp only [cycleIn, finishCycle, hfetch, hw, hd, hs]; rfl⟩
  · exact .inr ⟨i, by simp only [nextInstr, hw, hd], hs, by simp only [cycleIn, finishCycle, hfetch, hw, hd]⟩

theorem cycleIn_4095_of_not_touchesLastByte {s : State} (h : ¬ touchesLastByte s) :
    cycleIn .bytes4095 s = step s := by
  obtain ⟨hpc, hdata⟩ := not_or.mp h
  obtain ⟨-, hcycle⟩ | ⟨i, hi, hs, hcycle⟩ := cycleIn_4095_spec hpc
  · exact hcycle
  · rw [hcycle, hs, execIn_4095, State.advance_i, if_neg fun hlast => hdata ⟨i, hi, hlast⟩]

theorem cycleIn_4095_of_touchesLastByte {s : State} (h : touchesLastByte s) :
    cycleIn .bytes4095 s = .fault (.outOfBounds (if s.pc.toNat = 0xFFE then s.pc else s.pc + 2)) := by
  by_cases hpc : s.pc.toNat = 0xFFE
  · have hfetch : fetchWord s .bytes4095 = none := (fetchWord_4095 s).trans (if_pos hpc)
    simp only [cycleIn, finishCycle, hfetch, raise, if_pos hpc]
  · obtain ⟨i, hi, hlast⟩ := h.resolve_left hpc
    obtain ⟨hnone, -⟩ | ⟨j, hj, -, hcycle⟩ := cycleIn_4095_spec hpc
    · cases hnone.symm.trans hi
    · obtain rfl : j = i := Option.some.inj (hj.symm.trans hi)
      rw [hcycle, execIn_4095, if_neg hpc]
      exact if_pos hlast

/-- A ROM of 3584 bytes ends at `0xFFF`; it alone is treated differently under 4095 bytes. -/
theorem loadRom_4095 (rom : List Byte) (s : State) :
    loadRom rom s .bytes4095 = if rom.length = 3584 then none else loadRom rom s := by
  by_cases hlen : rom.length = 3584
  · rw [if_pos hlen, loadRom, hlen]
    rfl
  · rw [if_neg hlen]
    exact if_congr (by simp only [bytesOf, memSize, romBase]; omega) rfl rfl

/-- Settles O60: the fetch and the instruction under 4095 bytes differ from those under 4096 in ranges that end at
`0xFFF` alone. -/
theorem memorySizeMattersAtLastByte : Obligations.MemorySizeMattersAtLastByte :=
  ⟨fun s => ⟨cycleIn_memSize s, cycleIn_4095_of_not_touchesLastByte, cycleIn_4095_of_touchesLastByte⟩, loadRom_4095⟩

end Sys2Proof.Machine
end
